-- ==== Sys2Proof/Word.lean ====
section
/-! DEFINITION. The word types of the H2C core: what software sees as 32-bit and 256-bit words. -/

namespace Sys2Proof

/-- One 32-bit register of the window, and one command word (20_memory.md R71, 30_encoding.md R100). -/
abbrev Word := BitVec 32

/-- The contents of one 256-bit field register, of WSNAP, or of one word on an external port
(00_scope.md R6: `W = 256`). -/
abbrev Elem := BitVec 256

/-- One byte lane (20_memory.md R75). -/
abbrev Byte := BitVec 8

end Sys2Proof
end

