-- ==== Sys2Proof/Syntax.lean ====
section
/-! DEFINITION. The command set, version 1: one constructor per row of spec/opcode_table.json (30_encoding.md R106). -/

namespace Sys2Proof

/-- A 4-bit register field (R101, R102). A scalar operand names `F[r]`; a pair operand names `PR[k]` by its even
index `r = 2k`, as the command rules do. -/
abbrev Reg := Fin 16

/-- A command, its operands in the order of R118: destination, then `rs1`, then `rs2`. -/
inductive Instr where
  /-- R130: load a field register from the staging buffer -/
  | fld (fd : Reg)
  /-- R131: copy a field register -/
  | fmov (fd fs1 : Reg)
  /-- R141: modular addition -/
  | fadd (fd fs1 fs2 : Reg)
  /-- R142: modular subtraction -/
  | fsub (fd fs1 fs2 : Reg)
  /-- R143: modular multiplication -/
  | fmul (fd fs1 fs2 : Reg)
  /-- R144: modular negation -/
  | fneg (fd fs1 : Reg)
  /-- R145: modular inverse -/
  | finv (fd fs1 : Reg)
  /-- R146: modular exponentiation -/
  | fpow (fd fs1 fs2 : Reg)
  /-- R147: equality test -/
  | feq (fs1 fs2 : Reg)
  /-- R173: modular square root -/
  | fsqrt (fd fs1 : Reg)
  /-- R195: Elligator2 map; `prd` is a pair -/
  | ell2 (prd fs1 : Reg)
  /-- R212: Montgomery to twisted Edwards; both operands are pairs -/
  | m2e (prd prs1 : Reg)
  /-- R224: hash to field; `prd` is a pair -/
  | h2f (prd fs1 fs2 : Reg)
  /-- R227: hash to curve; `prd` is a pair -/
  | h2c (prd fs1 fs2 : Reg)
deriving DecidableEq, Repr

end Sys2Proof
end

