-- ==== Sys2Proof/WellFormed.lean ====
section
/-! DEFINITION. Which terms of `Instr` are commands: every pair field is even (30_encoding.md R102). -/

namespace Sys2Proof

/-- A field that may name a pair: its bit 0 is clear (R102). -/
def Reg.namesPair (r : Reg) : Bool := r.val % 2 == 0

/-- A scalar field may hold any of the 16 values, so only pair fields are checked. -/
def Instr.wellFormed : Instr → Bool
  | .fld _ => true
  | .fmov _ _ => true
  | .fadd _ _ _ => true
  | .fsub _ _ _ => true
  | .fmul _ _ _ => true
  | .fneg _ _ => true
  | .finv _ _ => true
  | .fpow _ _ _ => true
  | .feq _ _ => true
  | .fsqrt _ _ => true
  | .ell2 prd _ => prd.namesPair
  | .m2e prd prs1 => prd.namesPair && prs1.namesPair
  | .h2f prd _ _ => prd.namesPair
  | .h2c prd _ _ => prd.namesPair

end Sys2Proof
end

