-- ==== Sys2Proof/Decode.lean ====
section
/-! DEFINITION. Command words: fields, formats, the opcode map, the decoder and the encoder (30_encoding.md R100 to
R109). A command is the 32-bit value written to CMD, so it has no byte order of its own (20_memory.md R75). -/

namespace Sys2Proof

/-! ### Fields (R101) -/

def opField (w : Word) : BitVec 8 := w.extractLsb' 24 8
def rdField (w : Word) : Reg := (w.extractLsb' 20 4).toFin
def rs1Field (w : Word) : Reg := (w.extractLsb' 16 4).toFin
def rs2Field (w : Word) : Reg := (w.extractLsb' 12 4).toFin

/-! ### Formats (R105) -/

/-- The seven formats: which fields are used and how. -/
inductive Format where
  | S3 | S2 | S1 | C2 | P2 | PP | P3
deriving DecidableEq, Repr

/-- The bits a format fixes (R105). -/
def Format.mask : Format → Word
  | .S3 => 0xFF000FFF#32
  | .S2 => 0xFF00FFFF#32
  | .S1 => 0xFF0FFFFF#32
  | .C2 => 0xFFF00FFF#32
  | .P2 => 0xFF10FFFF#32
  | .PP => 0xFF11FFFF#32
  | .P3 => 0xFF100FFF#32

/-! ### The opcode map (R106) -/

/-- One row of R106. `build` makes the command from the fields `rd`, `rs1`, `rs2`. -/
structure OpRow where
  mnemonic : String
  format : Format
  fixed : Word
  build : Reg → Reg → Reg → Instr

def opcodeMap : List OpRow :=
  [ ⟨"FLD", .S1, 0x01000000#32, fun rd _ _ => .fld rd⟩,
    ⟨"FMOV", .S2, 0x02000000#32, fun rd rs1 _ => .fmov rd rs1⟩,
    ⟨"FADD", .S3, 0x10000000#32, .fadd⟩,
    ⟨"FSUB", .S3, 0x11000000#32, .fsub⟩,
    ⟨"FMUL", .S3, 0x12000000#32, .fmul⟩,
    ⟨"FNEG", .S2, 0x13000000#32, fun rd rs1 _ => .fneg rd rs1⟩,
    ⟨"FINV", .S2, 0x14000000#32, fun rd rs1 _ => .finv rd rs1⟩,
    ⟨"FPOW", .S3, 0x15000000#32, .fpow⟩,
    ⟨"FEQ", .C2, 0x16000000#32, fun _ rs1 rs2 => .feq rs1 rs2⟩,
    ⟨"FSQRT", .S2, 0x20000000#32, fun rd rs1 _ => .fsqrt rd rs1⟩,
    ⟨"ELL2", .P2, 0x30000000#32, fun rd rs1 _ => .ell2 rd rs1⟩,
    ⟨"M2E", .PP, 0x38000000#32, fun rd rs1 _ => .m2e rd rs1⟩,
    ⟨"H2F", .P3, 0x40000000#32, .h2f⟩,
    ⟨"H2C", .P3, 0x41000000#32, .h2c⟩ ]

/-- `(w & mask) = match` (R106). -/
def OpRow.accepts (row : OpRow) (w : Word) : Bool := w &&& row.format.mask == row.fixed

/-! ### The decoder (R107, R109) -/

/-- Why a word is illegal (R107). The hardware reports one error, ILLEGAL_CMD, for both. -/
inductive Illegal where
  /-- bits 31:24 are no opcode of R106 (this covers the all-zero word) -/
  | unassignedOpcode
  /-- the opcode is assigned, but a reserved bit is set (R103), an unused field is nonzero (R104), or a pair field is
  odd (R102) -/
  | fixedBits
deriving DecidableEq, Repr

/-- Total on all 32-bit words (R109): the command, or the reason the word is illegal. -/
def decode (w : Word) : Except Illegal Instr :=
  match opcodeMap.find? (·.accepts w) with
  | some row => .ok (row.build (rdField w) (rs1Field w) (rs2Field w))
  | none =>
    if opcodeMap.any fun row => opField row.fixed == opField w then .error .fixedBits
    else .error .unassignedOpcode

/-! ### The encoder -/

/-- A register number as its 4-bit field. -/
def regBits (r : Reg) : BitVec 4 := BitVec.ofFin r

/-- Lay out the fields of R101, reserved bits 0 (R103). -/
def packFields (op : BitVec 8) (rd rs1 rs2 : Reg) : Word :=
  op ++ regBits rd ++ regBits rs1 ++ regBits rs2 ++ 0#12

/-- The word of a command, unused fields 0 (R104). -/
def encode : Instr → Word
  | .fld fd => packFields 0x01#8 fd 0 0
  | .fmov fd fs1 => packFields 0x02#8 fd fs1 0
  | .fadd fd fs1 fs2 => packFields 0x10#8 fd fs1 fs2
  | .fsub fd fs1 fs2 => packFields 0x11#8 fd fs1 fs2
  | .fmul fd fs1 fs2 => packFields 0x12#8 fd fs1 fs2
  | .fneg fd fs1 => packFields 0x13#8 fd fs1 0
  | .finv fd fs1 => packFields 0x14#8 fd fs1 0
  | .fpow fd fs1 fs2 => packFields 0x15#8 fd fs1 fs2
  | .feq fs1 fs2 => packFields 0x16#8 0 fs1 fs2
  | .fsqrt fd fs1 => packFields 0x20#8 fd fs1 0
  | .ell2 prd fs1 => packFields 0x30#8 prd fs1 0
  | .m2e prd prs1 => packFields 0x38#8 prd prs1 0
  | .h2f prd fs1 fs2 => packFields 0x40#8 prd fs1 fs2
  | .h2c prd fs1 fs2 => packFields 0x41#8 prd fs1 fs2

/-- The command our decoder reads from a table word of `nbits` bits, the bits above them 0. A command has 32 bits; a
number that needs more is none. -/
def decodeTableWord (nbits w : Nat) : Option Instr :=
  let v := w % 2 ^ nbits
  if v < 2 ^ 32 then (decode (BitVec.ofNat 32 v)).toOption else none

end Sys2Proof
end

