-- ==== Sys2Proof/Machine/Field.lean ====
section
/-! DEFINITION. Exact arithmetic modulo `p` on field elements (00_scope.md R10 to R16, 41_field_arith.md R140):
integers in, the canonical representative in `[0, p)` out. Everything takes the modulus as an argument, so one
text serves every build. -/

namespace Sys2Proof.Machine

/-- `a + b mod p` (R11, R140). -/
def fadd (p a b : Nat) : Nat := (a + b) % p

/-- `a - b mod p`, the Euclidean remainder of the exact difference (R11, R140). -/
def fsub (p a b : Nat) : Nat := (((a : Int) - (b : Int)) % (p : Int)).toNat

/-- `a · b mod p`, from the full product (R11, R140). -/
def fmul (p a b : Nat) : Nat := (a * b) % p

/-- `-a mod p`; `fneg 0 = 0` (R11, R140). -/
def fneg (p a : Nat) : Nat := ((-(a : Int)) % (p : Int)).toNat

/-- Square-and-multiply from the low exponent bit up: `n` bits of the exponent `e` are left, `b` is the base raised
to the power of two reached so far, `acc` the product so far. -/
def fpowFrom (p : Nat) : Nat → Nat → Nat → Nat → Nat
  | 0, _, _, acc => acc % p
  | n + 1, b, e, acc => fpowFrom p n (b * b % p) (e / 2) (if e % 2 = 1 then acc * b % p else acc)

/-- `a ^ e mod p` for a non-negative exponent; `fpow a 0 = 1` for every `a`, 0 included (R11, R146). The document's
own method is square-and-multiply; `Sys2Proof.Laws.fpow_eq` says that the value is `a ^ e % p`. -/
def fpow (p a e : Nat) : Nat := fpowFrom p (e.log2 + 1) (a % p) e 1

/-- The multiplicative inverse of a nonzero `a`, computed as `a ^ (p - 2)` (R11; R145 leaves the method open and names
this value). Its value at 0 is never used: every caller checks first. -/
def finv (p a : Nat) : Nat := fpow p a (p - 2)

/-- `HALF = (p - 1) / 2`, the residuosity-test exponent (R6). -/
def half (p : Nat) : Nat := (p - 1) / 2

/-- How often 2 divides `n`, looking at most `fuel` times. -/
def valTwo : Nat → Nat → Nat
  | 0, _ => 0
  | fuel + 1, n => if n % 2 = 0 then valTwo fuel (n / 2) + 1 else 0

/-- `s`, the 2-adic valuation of `p - 1` (R6). `p < 2 ^ 256`, so 256 halvings are enough. -/
def twoAdicity (p : Nat) : Nat := valTwo 256 (p - 1)

/-- `q`, the odd part of `p - 1` (R6). -/
def oddPart (p : Nat) : Nat := (p - 1) / 2 ^ twoAdicity p

/-- Parity of the canonical representative: true when `v` is odd (R14). -/
def isOdd (v : Nat) : Bool := v % 2 == 1

/-- The residuosity test `is_square` (R15). -/
def isSquare (p n : Nat) : Bool := n == 0 || fpow p n (half p) == 1

/-- The curve right-hand side `g(x) = x³ + J·x² + x` (R16, written as 43_elligator2.md R190 writes it). -/
def curveRhs (p J x : Nat) : Nat :=
  fadd p (fadd p (fmul p (fmul p x x) x) (fmul p J (fmul p x x))) x

end Sys2Proof.Machine
end

