-- ==== Sys2Proof/Laws/Field.lean ====
section
/-! SUPPORT. What the field operations compute: values, ranges, and their meaning in `ZMod p`. -/

namespace Sys2Proof.Laws

open Sys2Proof.Machine

theorem fadd_lt {p : Nat} (hp : 0 < p) (a b : Nat) : fadd p a b < p := Nat.mod_lt _ hp

theorem fmul_lt {p : Nat} (hp : 0 < p) (a b : Nat) : fmul p a b < p := Nat.mod_lt _ hp

theorem emod_toNat_lt {p : Nat} (hp : 0 < p) (x : Int) : (x % (p : Int)).toNat < p := by
  have h1 := Int.emod_nonneg x (b := (p : Int)) (by omega)
  have h2 := Int.emod_lt_of_pos x (b := (p : Int)) (by omega)
  omega

theorem fsub_lt {p : Nat} (hp : 0 < p) (a b : Nat) : fsub p a b < p := emod_toNat_lt hp _

theorem fneg_lt {p : Nat} (hp : 0 < p) (a : Nat) : fneg p a < p := emod_toNat_lt hp _

theorem fpowFrom_eq (p : Nat) : ∀ n b e acc, e < 2 ^ n → fpowFrom p n b e acc = acc * b ^ e % p
  | 0, b, e, acc, h => by
    have : e = 0 := by simpa using h
    simp [fpowFrom, this]
  | n + 1, b, e, acc, h => by
    have he : e / 2 < 2 ^ n := by rw [pow_succ] at h; omega
    rw [fpowFrom, fpowFrom_eq p n _ _ _ he]
    have hb : (b * b % p) ^ (e / 2) ≡ b ^ (2 * (e / 2)) [MOD p] := by
      rw [pow_mul, pow_two]; exact (Nat.mod_modEq _ _).pow _
    split
    · next ho =>
      have hexp : b ^ e = b * b ^ (2 * (e / 2)) := by
        rw [← pow_succ']; congr 1; omega
      calc acc * b % p * (b * b % p) ^ (e / 2) % p
          = acc * b * b ^ (2 * (e / 2)) % p := (Nat.mod_modEq _ _).mul hb
        _ = acc * b ^ e % p := by rw [hexp, mul_assoc]
    · next ho =>
      have hexp : e = 2 * (e / 2) := by omega
      calc acc * (b * b % p) ^ (e / 2) % p = acc * b ^ (2 * (e / 2)) % p := hb.mul_left acc
        _ = acc * b ^ e % p := by rw [← hexp]

/-- Square-and-multiply computes the power. -/
theorem fpow_eq (p a e : Nat) : fpow p a e = a ^ e % p := by
  rw [fpow, fpowFrom_eq _ _ _ _ _ Nat.lt_log2_self, one_mul, Nat.pow_mod, Nat.mod_mod, ← Nat.pow_mod]

theorem fpow_lt {p : Nat} (hp : 0 < p) (a e : Nat) : fpow p a e < p := by
  rw [fpow_eq]; exact Nat.mod_lt _ hp

theorem finv_lt {p : Nat} (hp : 0 < p) (a : Nat) : finv p a < p := fpow_lt hp _ _

theorem curveRhs_lt {p : Nat} (hp : 0 < p) (J x : Nat) : curveRhs p J x < p := fadd_lt hp _ _

@[simp] theorem cast_fadd (p a b : Nat) : (fadd p a b : ZMod p) = a + b := by simp [fadd]

@[simp] theorem cast_fmul (p a b : Nat) : (fmul p a b : ZMod p) = a * b := by simp [fmul]

@[simp] theorem cast_fpow (p a e : Nat) : (fpow p a e : ZMod p) = (a : ZMod p) ^ e := by simp [fpow_eq]

theorem cast_emod_toNat {p : Nat} (hp : 0 < p) (x : Int) : (((x % (p : Int)).toNat : Nat) : ZMod p) = (x : ZMod p) := by
  have h1 := Int.emod_nonneg x (b := (p : Int)) (by omega)
  rw [← Int.cast_natCast, Int.toNat_of_nonneg h1]
  exact ZMod.intCast_mod x p

theorem cast_fsub {p : Nat} (hp : 0 < p) (a b : Nat) : (fsub p a b : ZMod p) = a - b := by
  rw [fsub, cast_emod_toNat hp]; push_cast; rfl

theorem cast_fneg {p : Nat} (hp : 0 < p) (a : Nat) : (fneg p a : ZMod p) = -a := by
  rw [fneg, cast_emod_toNat hp]; push_cast; rfl

/-- Lucas's test in the model's own arithmetic: `fs` lists the prime factors of `q - 1` and `g` has order `q - 1`. -/
theorem prime_of_factors (q g : Nat) (fs : List Nat) (hfs : ∀ r ∈ fs, r.Prime) (hq : 1 < q) (hprod : fs.prod = q - 1)
    (h1 : fpow q g (q - 1) = 1) (h2 : ∀ r ∈ fs, fpow q g ((q - 1) / r) ≠ 1) : q.Prime := by
  have key : ∀ e, (g : ZMod q) ^ e = 1 ↔ fpow q g e = 1 := fun e => by
    rw [← cast_fpow, ← Nat.cast_one, ZMod.natCast_eq_natCast_iff']
    rw [Nat.mod_eq_of_lt (fpow_lt (by omega) g e), Nat.mod_eq_of_lt hq]
  refine lucas_primality q (g : ZMod q) ((key _).2 h1) fun r hr hd h => ?_
  rw [← hprod] at hd
  obtain ⟨r', hr', hdvd⟩ := (Prime.dvd_prod_iff hr.prime).1 hd
  rw [(Nat.prime_dvd_prime_iff_eq hr (hfs r' hr')).1 hdvd] at h
  exact h2 r' hr' ((key _).1 h)

end Sys2Proof.Laws
end

