-- ==== Sys2Proof/Laws/Primality.lean ====
section
/-! SUPPORT. The BN254 scalar prime of profile BJJ (00_scope.md R8) is prime: Lucas's test, once for it and once for
each large prime in the chain of factors below it. Config.lean cites only the last theorem. -/

namespace Sys2Proof.Laws

theorem prime_405928799 : Nat.Prime 405928799 :=
  prime_of_factors _ 22 [2, 11, 3691, 4999] (by norm_num) (by decide) (by decide) (by decide +kernel) (by decide +kernel)

theorem prime_12048837557 : Nat.Prime 12048837557 :=
  prime_of_factors _ 2 [2, 2, 7, 7, 661, 93001] (by norm_num) (by decide) (by decide) (by decide +kernel)
    (by decide +kernel)

theorem prime_5156902474397 : Nat.Prime 5156902474397 :=
  prime_of_factors _ 2 [2, 2, 107, 12048837557] (by simp only [List.forall_mem_cons]; exact
    ⟨by norm_num, by norm_num, by norm_num, prime_12048837557, by simp⟩) (by decide) (by decide) (by decide +kernel)
    (by decide +kernel)

theorem prime_1670836401704629 : Nat.Prime 1670836401704629 :=
  prime_of_factors _ 2 [2, 2, 3, 3, 3, 3, 5156902474397] (by simp only [List.forall_mem_cons]; exact
    ⟨by norm_num, by norm_num, by norm_num, by norm_num, by norm_num, by norm_num, prime_5156902474397, by simp⟩)
    (by decide) (by decide) (by decide +kernel) (by decide +kernel)

theorem prime_639533339 : Nat.Prime 639533339 :=
  prime_of_factors _ 2 [2, 229, 853, 1637] (by norm_num) (by decide) (by decide) (by decide +kernel) (by decide +kernel)

theorem prime_65865678001877903 : Nat.Prime 65865678001877903 :=
  prime_of_factors _ 5 [2, 83, 379, 1637, 639533339] (by simp only [List.forall_mem_cons]; exact
    ⟨by norm_num, by norm_num, by norm_num, by norm_num, prime_639533339, by simp⟩) (by decide) (by decide)
    (by decide +kernel) (by decide +kernel)

theorem prime_13818364434197438864469338081 : Nat.Prime 13818364434197438864469338081 :=
  prime_of_factors _ 3 [2, 2, 2, 2, 2, 5, 823, 1593227, 65865678001877903] (by simp only [List.forall_mem_cons]; exact
    ⟨by norm_num, by norm_num, by norm_num, by norm_num, by norm_num, by norm_num, by norm_num, by norm_num,
      prime_65865678001877903, by simp⟩) (by decide) (by decide) (by decide +kernel) (by decide +kernel)

theorem prime_bn254 :
    Nat.Prime 21888242871839275222246405745257275088548364400416034343698204186575808495617 :=
  prime_of_factors _ 5 (List.replicate 28 2 ++ [3, 3, 13, 29, 983, 11003, 237073, 405928799, 1670836401704629,
    13818364434197438864469338081]) (by
      intro r hr
      rcases List.mem_append.1 hr with h | h
      · rw [List.eq_of_mem_replicate h]; exact Nat.prime_two
      · revert r; simp only [List.mem_cons, List.not_mem_nil, or_false]
        rintro r - (rfl | rfl | rfl | rfl | rfl | rfl | rfl | rfl | rfl | rfl)
        · norm_num
        · norm_num
        · norm_num
        · norm_num
        · norm_num
        · norm_num
        · norm_num
        · exact prime_405928799
        · exact prime_1670836401704629
        · exact prime_13818364434197438864469338081) (by decide +kernel) (by decide) (by decide +kernel)
    (by decide +kernel)

end Sys2Proof.Laws
end

