-- ==== Sys2Proof/Config.lean ====
section
/-! DEFINITION. What one build of the core fixes (00_scope.md R6 to R9) and the two external collaborators, which
stay open. (The import of Laws/Primality.lean is for one proof only: that profile BJJ's modulus is prime.) -/

namespace Sys2Proof

/-- The parameter record of R6. `k = 1` and the three cofactor doublings are fixed and carry no field; `s`, `q` and
`HALF` are derived from `p` (Machine/Field.lean). -/
structure Params where
  /-- the prime modulus of the base field -/
  p : Nat
  /-- the Montgomery coefficient of `y² = x³ + J·x² + x` -/
  J : Nat
  /-- the quadratic non-residue of Elligator2 -/
  z : Nat
  /-- the Tonelli–Shanks constant, of multiplicative order exactly `2 ^ s` -/
  cTS : Nat
  /-- the address of the register window in the host's address space -/
  base : Nat
deriving DecidableEq, Repr

open Sys2Proof.Machine in
/-- The constraints of R6. R7: a configuration that breaks one is refused. -/
structure Params.Valid (c : Params) : Prop where
  prime : Nat.Prime c.p
  five_le : 5 ≤ c.p
  p_lt : c.p < 2 ^ 256
  J_lt : c.J < c.p
  J_ne_zero : c.J ≠ 0
  J_sq_ne_four : fmul c.p c.J c.J ≠ 4
  z_lt : c.z < c.p
  z_nonresidue : isSquare c.p c.z = false
  cTS_lt : c.cTS < c.p
  cTS_order : fpow c.p c.cTS (2 ^ twoAdicity c.p) = 1
  cTS_order_exact : fpow c.p c.cTS (2 ^ (twoAdicity c.p - 1)) ≠ 1
  base_aligned : c.base % 4096 = 0

/-- A configuration the model admits: parameters together with the proof that they meet R6. R7's refusal of the others
is that none of them can be built. -/
structure Build extends Params where
  valid : toParams.Valid
deriving DecidableEq, Repr

/-- A point, or a pair of field elements, given by its coordinates (R16). -/
structure Point where
  x : Nat
  y : Nat
deriving DecidableEq, Repr

/-- The two external ports, as total functions of their requests: field elements out, 256-bit words back
(45_hash_to_curve.md R220, R221). -/
structure Ports where
  hash : Nat → Nat → Nat → Elem
  edadd : Point → Point → Elem × Elem

/-- `HASH` (R220): the external compression primitive. Nothing constrains its value. -/
opaque Config.hash : Params → Nat → Nat → Nat → Elem

/-- `EDADD` (R221): the external Edwards group law. Nothing constrains its value. -/
opaque Config.edadd : Params → Point → Point → Elem × Elem

/-- The ports a build is connected to. -/
def Config.ports (c : Params) : Ports := ⟨Config.hash c, Config.edadd c⟩

/-! ### The profiles of R8 and R9

`base` is OPEN in the spec (R70); every profile below puts the window at 0 (DESIGN CHOICE, assumption log 2). -/

/-- Profile BJJ, the default (R8). -/
def Build.bjj : Build where
  p := 21888242871839275222246405745257275088548364400416034343698204186575808495617
  J := 168698
  z := 5
  cTS := 19103219067921713944291392827692070036145651957329286315305642004821462161904
  base := 0
  valid :=
    { prime := Laws.prime_bn254
      five_le := by decide
      p_lt := by decide +kernel
      J_lt := by decide
      J_ne_zero := by decide
      J_sq_ne_four := by decide +kernel
      z_lt := by decide
      z_nonresidue := by decide +kernel
      cTS_lt := by decide
      cTS_order := by decide +kernel
      cTS_order_exact := by decide +kernel
      base_aligned := by decide }

/-- A small profile's constraints, checked by computation. -/
theorem Params.valid_of_check (c : Params) (hp : Nat.Prime c.p)
    (h : 5 ≤ c.p ∧ c.p < 2 ^ 256 ∧ c.J < c.p ∧ c.J ≠ 0 ∧ Machine.fmul c.p c.J c.J ≠ 4 ∧ c.z < c.p ∧
      Machine.isSquare c.p c.z = false ∧ c.cTS < c.p ∧ Machine.fpow c.p c.cTS (2 ^ Machine.twoAdicity c.p) = 1 ∧
      Machine.fpow c.p c.cTS (2 ^ (Machine.twoAdicity c.p - 1)) ≠ 1 ∧ c.base % 4096 = 0) : c.Valid :=
  let ⟨h1, h2, h3, h4, h5, h6, h7, h8, h9, h10, h11⟩ := h
  ⟨hp, h1, h2, h3, h4, h5, h6, h7, h8, h9, h10, h11⟩

/-- Test profile T97 (R9). -/
def Build.t97 : Build where
  toParams := { p := 97, J := 7, z := 5, cTS := 28, base := 0 }
  valid := Params.valid_of_check _ (by norm_num) (by decide +kernel)

/-- Test profile T19 (R9). -/
def Build.t19 : Build where
  toParams := { p := 19, J := 3, z := 2, cTS := 18, base := 0 }
  valid := Params.valid_of_check _ (by norm_num) (by decide +kernel)

/-- Test profile T19' (R9). -/
def Build.t19' : Build where
  toParams := { p := 19, J := 7, z := 2, cTS := 18, base := 0 }
  valid := Params.valid_of_check _ (by norm_num) (by decide +kernel)

/-- Test profile T11 (R9). -/
def Build.t11 : Build where
  toParams := { p := 11, J := 4, z := 6, cTS := 10, base := 0 }
  valid := Params.valid_of_check _ (by norm_num) (by decide +kernel)

end Sys2Proof
end

