-- ==== Sys2Proof/Machine/State.lean ====
section
/-! DEFINITION. The state of the core and of its surroundings, as plain data (10_state.md). The core fetches nothing
and owns no memory (20_memory.md R70), so there is neither a program counter nor a memory here: what runs next is the
next input the outside world supplies. -/

namespace Sys2Proof.Machine

/-- The error kinds of 60_exceptions.md R251. -/
inductive ErrCode where
  | none
  | illegalCmd
  | invalidFieldElement
  | divByZero
  | noSquareRoot
  | singularConversion
  | uninitialisedOperand
  | externalInvalid
deriving DecidableEq, Repr

/-- ERRSTAGE (60_exceptions.md R253): 0, or the number of the pipeline stage that failed, 1 to 10. -/
abbrev Stage := Fin 11

/-- The fields of STATUS (10_state.md R42). Its reserved bits read 0 and hold nothing. -/
structure Status where
  busy : Bool
  done : Bool
  err : Bool
  coll : Bool
  eq : Bool
  nr : Bool
  br : Bool
  errcode : ErrCode
  errstage : Stage
deriving DecidableEq, Repr

/-- One request on an external port (45_hash_to_curve.md R220, R221). -/
inductive Request where
  | hash (a b c : Nat)
  | edadd (P Q : Point)
deriving DecidableEq, Repr

/-- The place of one host access: its address in the host's address space, and its width in bytes (20_memory.md R70,
R72). -/
structure Access where
  addr : Nat
  bytes : Nat
deriving DecidableEq, Repr

/-- One thing that happens next, in the order the core sees it (20_memory.md R80). The list of inputs is the
interleaving of the host with the unit, which R81 leaves free: a claim about every list is a claim about every
interleaving. -/
inductive Input where
  /-- the host reads -/
  | hostRead (a : Access)
  /-- the host writes -/
  | hostWrite (a : Access) (v : Word)
  /-- the unit takes its completion step (10_state.md R40, 60_exceptions.md R252), if it is BUSY and its ports answer -/
  | unit
  /-- the reset input is asserted (`true`) or released (`false`) (70_reset_and_hazards.md R290); a release of a reset input
  that is not asserted stands for both in turn (assumption log 25) -/
  | resetInput (asserted : Bool)
  /-- the ports' readiness changes: from now on they answer only the first `n` requests of a command (`none`: all of
  them) (70_reset_and_hazards.md R301) -/
  | ports (limit : Option Nat)
deriving DecidableEq, Repr

structure State where
  /-- the build's constants (00_scope.md R6); no step changes them (10_state.md R53) -/
  build : Build
  /-- the field registers F[0..15] (10_state.md R31) -/
  freg : Vector Elem 16
  /-- the valid bits VALID[0..15] (10_state.md R33) -/
  valid : Vector Bool 16
  /-- the staging buffer WBUF[0..7] (10_state.md R45) -/
  wbuf : Vector Word 8
  /-- the CMD read-back (10_state.md R41) -/
  cmd : Word
  /-- CTRL.IRQ_EN (10_state.md R44) -/
  irqEn : Bool
  /-- STATUS (10_state.md R42) -/
  status : Status
  /-- the latch CMDL (10_state.md R37); its contents while IDLE are the model's choice (assumption log 24) -/
  cmdl : Word
  /-- the latch WSNAP (10_state.md R37); its contents while IDLE are the model's choice (assumption log 24) -/
  wsnap : Elem
  /-- the external requests the last accepted command has issued, oldest first; while BUSY the last one may be
  outstanding (10_state.md R52, 45_hash_to_curve.md R228) -/
  requests : List Request
  /-- the reset input is asserted (70_reset_and_hazards.md R290) -/
  resetHeld : Bool
  /-- the model's own: the word the last host read returned -/
  rdata : Word
  /-- the model's own: what the outside world does next, oldest first -/
  inputs : List Input
  /-- the model's own: how many requests of one command the ports answer (`none`: all) (70_reset_and_hazards.md R301) -/
  portLimit : Option Nat
deriving DecidableEq, Repr

/-- Nothing stops this machine with a fault: every error of the spec ends a command, and the machine goes on
(60_exceptions.md R250). So the type is empty, and no step can answer a fault. -/
inductive Fault : Type
deriving DecidableEq, Repr

/-- The reasons the model has no step. -/
inductive Refusal where
  /-- A command of the opcode table without a meaning. Raised by `exec`'s arms only, and by none of them now. Safe: no
  claim about such a command can be proved. -/
  | notModelled (mnemonic : String)
  /-- A host access that is not an aligned 32-bit one inside the window. Raised by a host read or write. The core answers a
  bus error, which the host takes outside the core, and 20_memory.md R72 asks a model to refuse it. Safe: the machine
  stops where the hardware goes on. -/
  | unsupportedAccess
  /-- A host access whose address is outside the core's window, so that it is not an access to this core. Raised by a
  host read or write (20_memory.md R70). Safe: the machine stops where the hardware is not concerned. -/
  | outsideWindow
deriving DecidableEq, Repr

/-- STATUS reads 0 (10_state.md R54). -/
def Status.reset : Status where
  busy := false
  done := false
  err := false
  coll := false
  eq := false
  nr := false
  br := false
  errcode := .none
  errstage := 0

/-- The machine right after reset (10_state.md R54), the reset input released (70_reset_and_hazards.md R290), built for profile BJJ (00_scope.md R8), with nothing to do and
ports that answer (assumption log 1 and 3). -/
def State.reset : State where
  build := Build.bjj
  freg := Vector.replicate 16 0
  valid := Vector.replicate 16 false
  wbuf := Vector.replicate 8 0
  cmd := 0
  irqEn := false
  status := Status.reset
  cmdl := 0
  wsnap := 0
  requests := []
  resetHeld := false
  rdata := 0
  inputs := []
  portLimit := none

end Sys2Proof.Machine
end

