-- ==== Sys2Proof/Machine/Bits.lean ====
section
/-! DEFINITION. Words of a 256-bit value and bytes of a word (20_memory.md R75, R76). -/

namespace Sys2Proof.Machine

/-- Word `k` of a 256-bit value, least significant first: bits `32k+31` to `32k` (R76). -/
def wordOf (v : Elem) (k : Fin 8) : Word := v.extractLsb' (32 * k.val) 32

/-- The 256-bit value shown through eight words: the sum of word `k` times `2 ^ (32k)` (10_state.md R45, R76). -/
def joinWords (w : Vector Word 8) : Elem :=
  BitVec.ofNat 256 (w.toList.foldr (fun x rest => x.toNat + 2 ^ 32 * rest) 0)

/-- Byte lane `b` of a 32-bit register, little-endian: bits `8b+7` to `8b` (R75). -/
def byteLane (w : Word) (b : Fin 4) : Byte := w.extractLsb' (8 * b.val) 8

end Sys2Proof.Machine
end

