-- ==== Sys2Proof/Machine/Flags.lean ====
section
/-! DEFINITION. STATUS, its flags, and the interrupt output (10_state.md R42, R43, R50, R51). -/

namespace Sys2Proof.Machine

/-! ### The flags a commit writes (R50) -/

/-- The value of EQ after an equality test of two canonical values (41_field_arith.md R147). -/
def eqFlag (a b : Nat) : Bool := a == b

/-- The value of NR after a square root: 1 for "no root" (42_sqrt.md R173). -/
def nrFlag (root : Option Nat) : Bool := root.isNone

def setEq (b : Bool) (s : State) : State := { s with status := { s.status with eq := b } }

def setNr (b : Bool) (s : State) : State := { s with status := { s.status with nr := b } }

def setBr (b : Bool) (s : State) : State := { s with status := { s.status with br := b } }

/-! ### STATUS as the host sees it -/

/-- The 8-bit code of an error (60_exceptions.md R251). -/
def ErrCode.code : ErrCode → BitVec 8
  | .none => 0x00#8
  | .illegalCmd => 0x01#8
  | .invalidFieldElement => 0x02#8
  | .divByZero => 0x03#8
  | .noSquareRoot => 0x04#8
  | .singularConversion => 0x05#8
  | .uninitialisedOperand => 0x06#8
  | .externalInvalid => 0x07#8

/-- One flag as a bit. -/
def flagBit (b : Bool) : BitVec 1 := BitVec.ofBool b

/-- The 32-bit read value of STATUS, reserved bits 0 (R42). -/
def Status.word (st : Status) : Word :=
  0#8 ++ BitVec.ofNat 8 st.errstage.val ++ st.errcode.code ++ 0#1 ++ flagBit st.br ++ flagBit st.nr ++ flagBit st.eq ++
    flagBit st.coll ++ flagBit st.err ++ flagBit st.done ++ flagBit st.busy

/-- No error is shown any more. -/
def Status.clearError (st : Status) : Status := { st with err := false, errcode := .none, errstage := 0 }

/-- A host write of `v` to STATUS: bits 1, 2 and 3 clear, every other bit is ignored (R43). -/
def Status.writeOneToClear (v : Word) (st : Status) : Status :=
  let st := if v[1] then { st.clearError with done := false } else st
  let st := if v[2] then st.clearError else st
  if v[3] then { st with coll := false } else st

/-! ### The interrupt output -/

/-- The level of the interrupt output (R51, 60_exceptions.md R256). -/
def irq (s : State) : Bool := s.irqEn && (s.status.done || s.status.coll)

end Sys2Proof.Machine
end

