-- ==== Sys2Proof/Machine/Ops.lean ====
section
/-! DEFINITION. The shared operations: reading and writing field registers, the command lifecycle (acceptance, commit,
ending with an error), the host's acknowledgement, and reset. -/

namespace Sys2Proof.Machine

/-- What a step answers. -/
abbrev Result := Host.Outcome State Fault Refusal

/-! ### Field registers (10_state.md R31 to R34) -/

/-- The integer held by `F[r]`. -/
def State.elem (s : State) (r : Reg) : Nat := s.freg[r].toNat

/-- `VALID[r]`. -/
def State.isValid (s : State) (r : Reg) : Bool := s.valid[r]

/-- `F[r] <- v`, which also sets `VALID[r] <- 1` (R33). -/
def writeReg (r : Reg) (v : Elem) (s : State) : State :=
  { s with freg := s.freg.set r v, valid := s.valid.set r true }

/-- The register of the `y` coordinate of the pair named by the even index `r` (R34). -/
def pairY (r : Reg) : Reg := r + 1

/-- Both registers of a pair at once (R34). -/
def writePair (r : Reg) (x y : Elem) (s : State) : State := writeReg (pairY r) y (writeReg r x s)

/-- A field element as register contents. -/
def toElem (v : Nat) : Elem := BitVec.ofNat 256 v

/-! ### The command lifecycle -/

/-- Acceptance of the command word `w` by an IDLE unit (10_state.md R38). The sticky COLL and the flags EQ, NR and BR
stay. No external request is outstanding yet. -/
def accept (w : Word) (s : State) : State :=
  { s with
    cmdl := w
    wsnap := joinWords s.wbuf
    cmd := w
    requests := []
    status := { s.status.clearError with done := false, busy := true } }

/-- The end of a successful command: the last two lines of the commit (10_state.md R40). The spec gives the latches CMDL
and WSNAP only while BUSY, and says that a completion discards them (R37, R52). That they keep their last contents here,
and in `raise`, is the model's choice: nothing reads them before the next acceptance (DESIGN CHOICE, assumption log
24). -/
def finish (s : State) : State := { s with status := { s.status with done := true, busy := false } }

/-- TAKING AN EXCEPTION. A command that raises the error `e` at `stage` ends in one step with its code and stage in
STATUS; no register, valid bit or flag is written, and CMD keeps the word of the command (60_exceptions.md R252). The
core has nothing else to save and nowhere to go (R250). For CMDL and WSNAP see `finish` (assumption log 24). -/
def raise (e : ErrCode) (stage : Stage) (s : State) : State :=
  { s with
    status := { s.status with errcode := e, errstage := stage, err := true, done := true, busy := false } }

/-- THE RETURN FROM AN EXCEPTION. There is no instruction for it: the host acknowledges by writing DONE and ERR to
STATUS (60_exceptions.md R257), a write like any other to that register (10_state.md R43). -/
def acknowledge (v : Word) (s : State) : State := { s with status := s.status.writeOneToClear v }

/-- A write to CMD while the unit is BUSY: dropped, and recorded in COLL (60_exceptions.md R255). -/
def collide (s : State) : State := { s with status := { s.status with coll := true } }

/-- The external requests issued so far by the command in progress. -/
def issue (reqs : List Request) (s : State) : State := { s with requests := reqs }

/-- The request whose answer the unit is waiting for, if there is one (10_state.md R52, 45_hash_to_curve.md R228). -/
def outstanding (s : State) : Option Request := if s.status.busy then s.requests.getLast? else none

/-- How many requests of the command in progress are answered: those the ports answer now, and those they have answered
already, which are all it has issued but the last one. -/
def answerLimit (s : State) : Option Nat := s.portLimit.map fun n => max n (s.requests.length - 1)

/-! ### Reset (10_state.md R54) -/

/-- A hardware or a soft reset (70_reset_and_hazards.md R290, R291): every piece of the core's state takes its reset
value, and a command in progress is gone with its outstanding request (R292). The build's constants stay (R293), and so
does what is outside the core: the level of the reset input, the inputs still to come, the word the host last read, the
ports' readiness. The discarded latches hold 0 (assumption log 24). -/
def resetCore (s : State) : State :=
  { State.reset with
    build := s.build, resetHeld := s.resetHeld, rdata := s.rdata, inputs := s.inputs, portLimit := s.portLimit }

/-- The reset input takes a level. On both edges every piece of the core's state has its reset value (R290). A release that
meets the reset input released is no edge, and the spec does not give one: it stands for an assertion and the release
after it with nothing in between, and resets the core too (DESIGN CHOICE, assumption log 25). -/
def setResetInput (asserted : Bool) (s : State) : State := { resetCore s with resetHeld := asserted }

/-- The state of the core as anything finds it: while the reset input is asserted, every piece has its reset value
(R290). -/
def underReset (s : State) : State := if s.resetHeld then resetCore s else s

end Sys2Proof.Machine
end

