-- ==== Sys2Proof/Machine/Operands.lean ====
section
/-! DEFINITION. Every operand form of the commands (30_encoding.md R102, R105): scalar and pair sources, scalar and
pair destinations, and the staging buffer. Checks come in the order of R111. -/

namespace Sys2Proof.Machine

/-! ### Sources -/

/-- A scalar source: `k` receives the value of `F[r]`, or the command ends with UNINITIALISED_OPERAND because nothing
has written `F[r]` (10_state.md R35). -/
def withSource (r : Reg) (s : State) (k : Nat → Result) : Result :=
  if s.isValid r then k (s.elem r) else .next (raise .uninitialisedOperand 0 s)

/-- Two scalar sources, `rs1` checked before `rs2` (R111 step 2). -/
def withSources (r1 r2 : Reg) (s : State) (k : Nat → Nat → Result) : Result :=
  withSource r1 s fun a => withSource r2 s fun b => k a b

/-- A pair source, named by its even index: `x` is checked before `y` (R111 step 2). -/
def withPairSource (r : Reg) (s : State) (k : Point → Result) : Result :=
  withSources r (pairY r) s fun x y => k ⟨x, y⟩

/-- The value FLD loads: the copy of WBUF taken at acceptance (10_state.md R37, 40_field_transfer.md R130). -/
def stagedValue (s : State) : Nat := s.wsnap.toNat

/-! ### The evenness of a pair field -/

/-- A pair field with bit 0 set is an illegal encoding: the command ends with ILLEGAL_CMD before anything is read
(R102, R107, R111 step 1). The decoder gives no such term. -/
def withPairField (r : Reg) (s : State) (k : Result) : Result :=
  if r.val % 2 = 0 then k else .next (raise .illegalCmd 0 s)

/-! ### Destinations, written at the commit (10_state.md R40) -/

/-- Commit one scalar result. -/
def commitScalar (fd : Reg) (v : Nat) (s : State) : Result := .next (finish (writeReg fd (toElem v) s))

/-- Commit a pair of results. -/
def commitPair (prd : Reg) (P : Point) (s : State) : Result :=
  .next (finish (writePair prd (toElem P.x) (toElem P.y) s))

/-- Commit a command that writes no register. -/
def commitNothing (s : State) : Result := .next (finish s)

end Sys2Proof.Machine
end

