-- ==== Sys2Proof/Machine/Arith.lean ====
section
/-! DEFINITION. Prime-field modular arithmetic commands (41_field_arith.md). -/

namespace Sys2Proof.Machine

/-- The shape of FADD, FSUB, FMUL and FPOW: two scalar sources, one scalar result. -/
def binaryOp (op : Nat → Nat → Nat → Nat) (fd fs1 fs2 : Reg) (s : State) : Result :=
  withSources fs1 fs2 s fun a b => commitScalar fd (op s.build.p a b) s

/-- FADD (R141). -/
def execFadd (fd fs1 fs2 : Reg) (s : State) : Result := binaryOp fadd fd fs1 fs2 s

/-- FSUB (R142): `F[fs1] - F[fs2]`. -/
def execFsub (fd fs1 fs2 : Reg) (s : State) : Result := binaryOp fsub fd fs1 fs2 s

/-- FMUL (R143). -/
def execFmul (fd fs1 fs2 : Reg) (s : State) : Result := binaryOp fmul fd fs1 fs2 s

/-- FNEG (R144). -/
def execFneg (fd fs1 : Reg) (s : State) : Result :=
  withSource fs1 s fun a => commitScalar fd (fneg s.build.p a) s

/-- FINV (R145): the inverse of 0 ends the command with DIV_BY_ZERO (90_conflicts.md C6). -/
def execFinv (fd fs1 : Reg) (s : State) : Result :=
  withSource fs1 s fun a =>
    if a = 0 then .next (raise .divByZero 0 s) else commitScalar fd (finv s.build.p a) s

/-- FPOW (R146): base `F[fs1]`, exponent the integer value of `F[fs2]`. -/
def execFpow (fd fs1 fs2 : Reg) (s : State) : Result := binaryOp fpow fd fs1 fs2 s

/-- FEQ (R147): writes STATUS.EQ and no register. -/
def execFeq (fs1 fs2 : Reg) (s : State) : Result :=
  withSources fs1 fs2 s fun a b => commitNothing (setEq (eqFlag a b) s)

end Sys2Proof.Machine
end

