-- ==== Sys2Proof/Machine/Conversion.lean ====
section
/-! DEFINITION. The Montgomery-to-Edwards converter (44_conversion.md). -/

namespace Sys2Proof.Machine

/-- `MontToEd` (R211), `none` for a singular input: `yM = 0` or `xM = p - 1` (R210). No on-curve check is made. -/
def montToEd (p : Nat) (P : Point) : Option Point :=
  if P.y = 0 ∨ P.x = p - 1 then none
  else some ⟨fmul p P.x (finv p P.y), fmul p (fsub p P.x 1) (finv p (fadd p P.x 1))⟩

/-- M2E (R212). -/
def execM2e (prd prs1 : Reg) (s : State) : Result :=
  withPairField prd s <|
  withPairField prs1 s <|
  withPairSource prs1 s fun P =>
    match montToEd s.build.p P with
    | some E => commitPair prd E s
    | none => .next (raise .singularConversion 0 s)

end Sys2Proof.Machine
end

