-- ==== Sys2Proof/Machine/Sqrt.lean ====
section
/-! DEFINITION. The Tonelli–Shanks square-root engine (42_sqrt.md). The loop is the document's own; R172's closed
form is a statement about it. -/

namespace Sys2Proof.Machine

/-- The least `i ≥ 1` with `t ^ (2 ^ i) = 1`, by repeated squaring: `i` is the candidate and `tt = t ^ (2 ^ i)`.
In a valid build `i < m` is found, so the fuel (the caller's `m`) is never exhausted (R170, assumption log 4). -/
def leastSquarings (p : Nat) : Nat → Nat → Nat → Nat
  | 0, i, _ => i
  | fuel + 1, i, tt => if tt = 1 then i else leastSquarings p fuel (i + 1) (fmul p tt tt)

/-- The while-loop of R170: `t ≠ 1` is tested before each iteration, the first included. `m` strictly falls in a valid
build, so `s` iterations are never all used (assumption log 4). -/
def tonelliLoop (p : Nat) : Nat → Nat → Nat → Nat → Nat → Nat
  | 0, _, _, _, r => r
  | fuel + 1, m, c, t, r =>
    if t = 1 then r
    else
      let i := leastSquarings p m 1 (fmul p t t)
      let b := fpow p c (2 ^ (m - i - 1))
      let c' := fmul p b b
      tonelliLoop p fuel i c' (fmul p t c') (fmul p r b)

/-- The canonical root, the one that is `≤ HALF` (R171). -/
def normaliseRoot (p r : Nat) : Nat := if half p < r then fneg p r else r

/-- `SqrtTS(n)` (R170): a root, or `none` for "no root". -/
def sqrtTS (c : Params) (n : Nat) : Option Nat :=
  if n = 0 then some 0
  else if fpow c.p n (half c.p) ≠ 1 then none
  else
    let s := twoAdicity c.p
    let q := oddPart c.p
    some (normaliseRoot c.p (tonelliLoop c.p s s c.cTS (fpow c.p n q) (fpow c.p n ((q + 1) / 2))))

/-- FSQRT (R173): a root is written with NR = 0; "no root" is no error, writes no register and sets NR = 1. -/
def execFsqrt (fd fs1 : Reg) (s : State) : Result :=
  withSource fs1 s fun n =>
    let root := sqrtTS s.build.toParams n
    let s := setNr (nrFlag root) s
    match root with
    | some y => commitScalar fd y s
    | none => commitNothing s

end Sys2Proof.Machine
end

