-- ==== Sys2Proof/Machine/Elligator.lean ====
section
/-! DEFINITION. The Elligator2 mapper (43_elligator2.md), in the later of the document's two versions
(90_conflicts.md C1). -/

namespace Sys2Proof.Machine

/-- The result of the map: a point, and the branch it came from (`true`: the `x2` branch). -/
structure MapResult where
  point : Point
  br : Bool
deriving DecidableEq, Repr

/-- The denominator that is inverted: `z` in the exceptional case `1 + z·u² = 0` (R191). -/
def safeDenom (c : Params) (u : Nat) : Nat :=
  let denom := fadd c.p 1 (fmul c.p c.z (fmul c.p u u))
  if denom = 0 then c.z else denom

/-- `x1 = -J · inverse(safeDenom)` (R190 step 3). -/
def mapX1 (c : Params) (u : Nat) : Nat := fmul c.p (fneg c.p c.J) (finv c.p (safeDenom c u))

/-- `x2 = -x1 - J` (R190 step 3). -/
def mapX2 (c : Params) (u : Nat) : Nat := fsub c.p (fneg c.p (mapX1 c u)) c.J

/-- Negate an even root (R192). -/
def forceOdd (p y : Nat) : Nat := if isOdd y then y else fneg p y

/-- Negate an odd root (R193). -/
def forceEven (p y : Nat) : Nat := if isOdd y then fneg p y else y

/-- `Ell2Map(u)` (R190), `none` when neither right-hand side has a root (R194). -/
def ell2Map (c : Params) (u : Nat) : Option MapResult :=
  match sqrtTS c (curveRhs c.p c.J (mapX1 c u)) with
  | some y1 => some ⟨⟨mapX1 c u, forceOdd c.p y1⟩, false⟩
  | none =>
    match sqrtTS c (curveRhs c.p c.J (mapX2 c u)) with
    | some y2 => some ⟨⟨mapX2 c u, forceEven c.p y2⟩, true⟩
    | none => none

/-- ELL2 (R195): the point and the branch flag, or NO_SQUARE_ROOT. -/
def execEll2 (prd fs1 : Reg) (s : State) : Result :=
  withPairField prd s <|
  withSource fs1 s fun u =>
    match ell2Map s.build.toParams u with
    | some r => commitPair prd r.point (setBr r.br s)
    | none => .next (raise .noSquareRoot 0 s)

end Sys2Proof.Machine
end

