-- ==== Sys2Proof/Machine/HashToCurve.lean ====
section
/-! DEFINITION. The hash-to-curve orchestrator (45_hash_to_curve.md): the two external ports, and the pipeline that
calls them. -/

namespace Sys2Proof.Machine

/-! ### A pipeline run: the requests it issues and how it ends -/

/-- How a run of stages ends. -/
inductive Ending (α : Type) where
  /-- every stage ran -/
  | value (a : α)
  /-- a stage raised an error; no later stage runs (R225) -/
  | error (e : ErrCode) (stage : Stage)
  /-- the last request issued is not answered (R228, 70_reset_and_hazards.md R301) -/
  | waiting
deriving DecidableEq, Repr

/-- A run: the external requests in the order they are issued, and the ending. -/
structure Run (α : Type) where
  requests : List Request
  ending : Ending α
deriving DecidableEq, Repr

/-- One run after the other; the second begins only when the first ended with a value (R225, R228). -/
def Run.andThen {α β : Type} (r : Run α) (next : α → Run β) : Run β :=
  match r.ending with
  | .value a => ⟨r.requests ++ (next a).requests, (next a).ending⟩
  | .error e stage => ⟨r.requests, .error e stage⟩
  | .waiting => ⟨r.requests, .waiting⟩

/-- A run that has a value at once. -/
def Run.done {α : Type} (a : α) : Run α := ⟨[], .value a⟩

/-- A stage that issues no request. -/
def internalStage {α : Type} (e : ErrCode) (stage : Stage) : Option α → Run α
  | some a => ⟨[], .value a⟩
  | none => ⟨[], .error e stage⟩

/-- What a command's requests meet outside: the ports, and how many of its requests they answer. -/
structure Outside where
  ports : Ports
  limit : Option Nat

/-- Whether the `n`-th request of a command (counting from 1) is answered. -/
def Outside.answers (o : Outside) (n : Nat) : Bool :=
  match o.limit with
  | none => true
  | some k => n ≤ k

/-- A stage on the hash port: request number `n` of its command (R220). The answer must be canonical. -/
def hashStage (p : Nat) (o : Outside) (n : Nat) (stage : Stage) (a b c : Nat) : Run Nat :=
  let h := (o.ports.hash a b c).toNat
  ⟨[.hash a b c],
    if o.answers n then (if h < p then .value h else .error .externalInvalid stage) else .waiting⟩

/-- A stage on the group-law port: request number `n` of its command (R221). Both words must be canonical. -/
def addStage (p : Nat) (o : Outside) (n : Nat) (stage : Stage) (P Q : Point) : Run Point :=
  let h := o.ports.edadd P Q
  ⟨[.edadd P Q],
    if o.answers n then
      (if h.1.toNat < p ∧ h.2.toNat < p then .value ⟨h.1.toNat, h.2.toNat⟩ else .error .externalInvalid stage)
    else .waiting⟩

/-! ### The two computations -/

/-- `HashToField(m, d)` (R223): the domain indices are 0 and 1, and the second request uses the first answer. -/
def hashToField (p : Nat) (o : Outside) (m d : Nat) : Run (Nat × Nat) :=
  (hashStage p o 1 1 m 0 d).andThen fun f1 =>
  (hashStage p o 2 2 f1 1 d).andThen fun f2 =>
  .done (f1, f2)

/-- `HashToCurve(m, d)` (R225): stages 1 to 10 in this order. A doubling is `EDADD(R, R)` (R226). -/
def hashToCurve (c : Params) (o : Outside) (m d : Nat) : Run Point :=
  (hashToField c.p o m d).andThen fun f =>
  (internalStage .noSquareRoot 3 (ell2Map c f.1)).andThen fun M1 =>
  (internalStage .noSquareRoot 4 (ell2Map c f.2)).andThen fun M2 =>
  (internalStage .singularConversion 5 (montToEd c.p M1.point)).andThen fun E1 =>
  (internalStage .singularConversion 6 (montToEd c.p M2.point)).andThen fun E2 =>
  (addStage c.p o 3 7 E1 E2).andThen fun R =>
  (addStage c.p o 4 8 R R).andThen fun R =>
  (addStage c.p o 5 9 R R).andThen fun R =>
  addStage c.p o 6 10 R R

/-! ### The commands -/

/-- What becomes of a run whose result goes to the pair `prd`: the commit, the error of the stage that failed, or a unit
that stays BUSY because a port does not answer (R228, 70_reset_and_hazards.md R301). -/
def concludeRun (prd : Reg) (s : State) (r : Run Point) : Result :=
  match r.ending with
  | .value P => commitPair prd P (issue r.requests s)
  | .error e stage => .next (raise e stage (issue r.requests s))
  | .waiting => .next (issue r.requests s)

/-- A result made of two field elements, as a pair operand holds it. -/
def Run.asPair (r : Run (Nat × Nat)) : Run Point := r.andThen fun f => .done ⟨f.1, f.2⟩

/-- H2F over given ports (R224). -/
def h2fOver (ports : Ports) (prd fs1 fs2 : Reg) (s : State) : Result :=
  withPairField prd s <|
  withSources fs1 fs2 s fun m d => concludeRun prd s (hashToField s.build.p ⟨ports, answerLimit s⟩ m d).asPair

/-- H2C over given ports (R227). It writes no flag (R229). -/
def h2cOver (ports : Ports) (prd fs1 fs2 : Reg) (s : State) : Result :=
  withPairField prd s <|
  withSources fs1 fs2 s fun m d => concludeRun prd s (hashToCurve s.build.toParams ⟨ports, answerLimit s⟩ m d)

/-- H2F (R224). -/
def execH2f (prd fs1 fs2 : Reg) (s : State) : Result :=
  h2fOver (Config.ports s.build.toParams) prd fs1 fs2 s

/-- H2C (R227). -/
def execH2c (prd fs1 fs2 : Reg) (s : State) : Result :=
  h2cOver (Config.ports s.build.toParams) prd fs1 fs2 s

end Sys2Proof.Machine
end

