-- ==== Sys2Proof/Machine/Transfer.lean ====
section
/-! DEFINITION. Field-register transfer commands (40_field_transfer.md). -/

namespace Sys2Proof.Machine

/-- FLD (R130): load the staged value if it is canonical; it is never reduced. -/
def execFld (fd : Reg) (s : State) : Result :=
  if stagedValue s < s.build.p then commitScalar fd (stagedValue s) s
  else .next (raise .invalidFieldElement 0 s)

/-- FMOV (R131): copy a register. -/
def execFmov (fd fs1 : Reg) (s : State) : Result :=
  withSource fs1 s fun a => commitScalar fd a s

end Sys2Proof.Machine
end

