-- ==== Sys2Proof/Machine/Dispatch.lean ====
section
/-! DEFINITION. One arm per command: the execution of a decoded command by the BUSY unit (10_state.md R39). -/

namespace Sys2Proof.Machine

def exec (i : Instr) (s : State) : Host.Outcome State Fault Refusal :=
  match i with
  | .fld fd => Sys2Proof.Machine.execFld fd s
  | .fmov fd fs1 => Sys2Proof.Machine.execFmov fd fs1 s
  | .fadd fd fs1 fs2 => Sys2Proof.Machine.execFadd fd fs1 fs2 s
  | .fsub fd fs1 fs2 => Sys2Proof.Machine.execFsub fd fs1 fs2 s
  | .fmul fd fs1 fs2 => Sys2Proof.Machine.execFmul fd fs1 fs2 s
  | .fneg fd fs1 => Sys2Proof.Machine.execFneg fd fs1 s
  | .finv fd fs1 => Sys2Proof.Machine.execFinv fd fs1 s
  | .fpow fd fs1 fs2 => Sys2Proof.Machine.execFpow fd fs1 fs2 s
  | .feq fs1 fs2 => Sys2Proof.Machine.execFeq fs1 fs2 s
  | .fsqrt fd fs1 => Sys2Proof.Machine.execFsqrt fd fs1 s
  | .ell2 prd fs1 => Sys2Proof.Machine.execEll2 prd fs1 s
  | .m2e prd prs1 => Sys2Proof.Machine.execM2e prd prs1 s
  | .h2f prd fs1 fs2 => Sys2Proof.Machine.execH2f prd fs1 fs2 s
  | .h2c prd fs1 fs2 => Sys2Proof.Machine.execH2c prd fs1 fs2 s

end Sys2Proof.Machine
end

