-- ==== Sys2Proof/Machine/Window.lean ====
section
/-! DEFINITION. The register window: its address map, what a host read returns and what a host write does
(20_memory.md R70 to R79, 10_state.md R41 to R49). -/

namespace Sys2Proof.Machine

/-- What stands at an offset of the window (R71). -/
inductive WindowReg where
  | id
  | version
  | paramInfo
  | ctrl
  | status
  | cmd
  | validr
  | wbuf (k : Fin 8)
  | pWord (k : Fin 8)
  | jWord (k : Fin 8)
  | zWord (k : Fin 8)
  | freg (i : Reg) (k : Fin 8)
  | reserved
deriving DecidableEq, Repr

/-- The word number within an eight-word field, all of which begin at a multiple of 32. -/
def wordIndex (off : Nat) : Fin 8 := Fin.ofNat 8 (off / 4)

/-- The field register whose words stand at an offset from `0x400` up. -/
def fregIndex (off : Nat) : Reg := Fin.ofNat 16 ((off - 0x400) / 0x20)

/-- The address map of the window, for an offset that is a multiple of 4 (R71). -/
def windowReg (off : Nat) : WindowReg :=
  if off < 0x004 then .id
  else if off < 0x008 then .version
  else if off < 0x00C then .paramInfo
  else if off < 0x010 then .ctrl
  else if off < 0x014 then .status
  else if off < 0x018 then .cmd
  else if off < 0x01C then .validr
  else if off < 0x040 then .reserved
  else if off < 0x060 then .wbuf (wordIndex off)
  else if off < 0x100 then .reserved
  else if off < 0x120 then .pWord (wordIndex off)
  else if off < 0x140 then .jWord (wordIndex off)
  else if off < 0x160 then .zWord (wordIndex off)
  else if off < 0x400 then .reserved
  else if off < 0x600 then .freg (fregIndex off) (wordIndex off)
  else .reserved

/-! ### Reads -/

/-- CTRL: IRQ_EN in bit 0; SRST and the reserved bits read 0 (10_state.md R44). -/
def ctrlWord (s : State) : Word := 0#31 ++ flagBit s.irqEn

/-- PARAM_INFO: NREG, NW and `s` (10_state.md R47). -/
def paramInfoWord (s : State) : Word := 0#8 ++ BitVec.ofNat 8 (twoAdicity s.build.p) ++ 8#8 ++ 16#8

/-- VALIDR: bit `i` reads `VALID[i]` (10_state.md R49). -/
def validWord (s : State) : Word := BitVec.ofNat 32 (s.valid.toList.foldr (fun b rest => b.toNat + 2 * rest) 0)

/-- The word a register of the window shows. -/
def WindowReg.read (s : State) : WindowReg → Word
  | .id => 0x48324331#32
  | .version => 0x00000001#32
  | .paramInfo => paramInfoWord s
  | .ctrl => ctrlWord s
  | .status => s.status.word
  | .cmd => s.cmd
  | .validr => validWord s
  | .wbuf k => s.wbuf[k]
  | .pWord k => wordOf (toElem s.build.p) k
  | .jWord k => wordOf (toElem s.build.J) k
  | .zWord k => wordOf (toElem s.build.z) k
  | .freg i k => wordOf s.freg[i] k
  | .reserved => 0

/-- `MemRead(off, 4)`. -/
def readWord (s : State) (off : Nat) : Word := (windowReg off).read s

/-- The byte of the window at offset `off`, as a byte lane of its register carries it (R75). The core answers no access
narrower than a word (R72); this says how a word read from the window lies in a host's memory. -/
def windowByte (s : State) (off : Nat) : Byte := byteLane (readWord s (off - off % 4)) (Fin.ofNat 4 off)

/-! ### Writes (R73, R74, R78) -/

/-- A write to CMD: accepted by an IDLE unit, dropped by a BUSY one (10_state.md R38, 60_exceptions.md R255). -/
def writeCmd (v : Word) (s : State) : State := if s.status.busy then collide s else accept v s

/-- A write to CTRL: bit 1 resets the core whatever bit 0 is; otherwise bit 0 is IRQ_EN (10_state.md R44). -/
def writeCtrl (v : Word) (s : State) : State := if v[1] then resetCore s else { s with irqEn := v[0] }

/-- A write to a word of WBUF, with no check (10_state.md R45). -/
def writeWbuf (k : Fin 8) (v : Word) (s : State) : State := { s with wbuf := s.wbuf.set k v }

/-- What a write of `v` does to a register of the window. Read-only registers (R74) and reserved offsets (R73) ignore
it. -/
def WindowReg.write (v : Word) (s : State) : WindowReg → State
  | .cmd => writeCmd v s
  | .status => acknowledge v s
  | .ctrl => writeCtrl v s
  | .wbuf k => writeWbuf k v s
  | .id => s
  | .version => s
  | .paramInfo => s
  | .validr => s
  | .pWord _ => s
  | .jWord _ => s
  | .zWord _ => s
  | .freg _ _ => s
  | .reserved => s

/-- `MemWrite(off, 4, v)`. -/
def writeWord (s : State) (off : Nat) (v : Word) : State := (windowReg off).write v s

/-! ### Accesses -/

/-- The offset of an access, if it is one the core supports: aligned, 32 bits wide, inside the window (R70, R72). -/
def accessOffset (c : Params) (a : Access) : Except Refusal Nat :=
  if a.addr < c.base ∨ c.base + 4096 ≤ a.addr then .error .outsideWindow
  else if a.bytes = 4 ∧ (a.addr - c.base) % 4 = 0 then .ok (a.addr - c.base)
  else .error .unsupportedAccess

/-- A host read. It has no side effect on the core (R78); the host gets the word. -/
def hostRead (a : Access) (s : State) : Result :=
  match accessOffset s.build.toParams a with
  | .ok off => .next { s with rdata := readWord s off }
  | .error r => .refused r

/-- A host write. While the reset input is asserted it leaves the reset values as they are
(70_reset_and_hazards.md R290). -/
def hostWrite (a : Access) (v : Word) (s : State) : Result :=
  match accessOffset s.build.toParams a with
  | .ok off => .next (if s.resetHeld then s else writeWord s off v)
  | .error r => .refused r

end Sys2Proof.Machine
end

