-- ==== Sys2Proof/Machine/Unit.lean ====
section
/-! DEFINITION. The agents' steps (10_state.md R30): the unit's, and one input's. -/

namespace Sys2Proof.Machine

/-- The unit's step. A BUSY unit decodes CMDL and executes the command to its end in one atomic step (10_state.md R39,
R52, 30_encoding.md R111); an illegal word ends with ILLEGAL_CMD (R107). An IDLE unit does nothing (60_exceptions.md
R267). -/
def unitStep (s : State) : Result :=
  if s.status.busy then
    match decode s.cmdl with
    | .ok i => exec i s
    | .error _ => .next (raise .illegalCmd 0 s)
  else .next s

/-- What one input does to the core. -/
def takeInput (s : State) : Input → Result
  | .hostRead a => hostRead a s
  | .hostWrite a v => hostWrite a v s
  | .unit => unitStep s
  | .resetInput asserted => .next (setResetInput asserted s)
  | .ports limit => .next { s with portLimit := limit }

/-- `s` with the reset input released, the command word `w` just accepted, and the unit's step the very next thing to
happen. -/
def acceptNext (w : Word) (s : State) : State :=
  let t := accept w s
  { t with resetHeld := false, inputs := .unit :: t.inputs }

end Sys2Proof.Machine
end

