-- ==== Sys2Proof/Machine/Step.lean ====
section
/-! DEFINITION. One step of the machine, and the place a command comes from. -/

namespace Sys2Proof.Machine

/-- One step: the next input happens. When the outside world has nothing more to do, only the unit is left to move, and
it does if it is BUSY (70_reset_and_hazards.md R299); an IDLE core keeps its state (60_exceptions.md R267). Whatever
happens while the reset input is asserted finds the core at its reset values (R290). -/
def step (s : State) : Host.Outcome State Fault Refusal :=
  match s.inputs with
  | [] => unitStep (underReset s)
  | i :: rest => takeInput { underReset s with inputs := rest } i

/-- `s` with the command word `w` accepted and about to run. The core fetches nothing (10_state.md R36): a command is
the word in CMDL, put there by acceptance (R38), and the unit's step executes it (assumption log 5). -/
def State.withFetchWord (s : State) (nbits w : Nat) : State := acceptNext (BitVec.ofNat 32 (w % 2 ^ nbits)) s

end Sys2Proof.Machine
end

