-- ==== Sys2Proof/Safety.lean ====
section
/-! DEFINITION. What a reachable state looks like (the invariant), and what a host must not do (the hazards). -/

namespace Sys2Proof.Machine

/-! ### The invariant -/

/-- Every field register holds a canonical field element (10_state.md R31). -/
def State.Canonical (s : State) : Prop := ∀ r : Reg, s.elem r < s.build.p

/-- A register nothing has written since the last reset holds 0 (10_state.md R33). -/
def State.InvalidIsZero (s : State) : Prop := ∀ r : Reg, s.isValid r = false → s.elem r = 0

/-- The stages at which an error can be reported (60_exceptions.md R251, R253). -/
def ErrCode.stages : ErrCode → List Stage
  | .none => [0]
  | .illegalCmd => [0]
  | .invalidFieldElement => [0]
  | .divByZero => [0]
  | .noSquareRoot => [0, 3, 4]
  | .singularConversion => [0, 5, 6]
  | .uninitialisedOperand => [0]
  | .externalInvalid => [1, 2, 7, 8, 9, 10]

/-- STATUS shows none of the values that cannot occur (10_state.md R42), and ERRSTAGE fits ERRCODE (R251). -/
structure Status.Legal (st : Status) : Prop where
  busy_not_done : st.busy = true → st.done = false
  busy_not_err : st.busy = true → st.err = false
  err_done : st.err = true → st.done = true
  err_iff_code : st.err = true ↔ st.errcode ≠ .none
  stage_fits : st.errstage ∈ st.errcode.stages

/-- A request carries field elements (45_hash_to_curve.md R220, R221). -/
def Request.Canonical (p : Nat) : Request → Prop
  | .hash a b c => a < p ∧ b < p ∧ c < p
  | .edadd P Q => P.x < p ∧ P.y < p ∧ Q.x < p ∧ Q.y < p

/-- What every step keeps. -/
structure State.Inv (s : State) : Prop where
  canonical : s.Canonical
  invalid_zero : s.InvalidIsZero
  status_legal : s.status.Legal
  /-- while BUSY, CMD reads the command in progress (10_state.md R37, R41) -/
  cmd_latched : s.status.busy = true → s.cmd = s.cmdl
  requests_canonical : ∀ r ∈ s.requests, r.Canonical s.build.p
  /-- while the reset input is asserted, every piece of the core has its reset value (70_reset_and_hazards.md R290) -/
  held_at_reset : s.resetHeld = true → s = resetCore s

/-! ### What a command may read, write and raise -/

/-- The source registers a command names, in the order they are checked (30_encoding.md R105, R111). -/
def sources : Instr → List Reg
  | .fld _ => []
  | .fmov _ a | .fneg _ a | .finv _ a | .fsqrt _ a | .ell2 _ a => [a]
  | .fadd _ a b | .fsub _ a b | .fmul _ a b | .fpow _ a b | .feq a b | .h2f _ a b | .h2c _ a b => [a, b]
  | .m2e _ a => [a, a + 1]

/-- The registers a command may write (30_encoding.md R105). -/
def destinations : Instr → List Reg
  | .feq _ _ => []
  | .fld d | .fmov d _ | .fneg d _ | .finv d _ | .fsqrt d _ => [d]
  | .fadd d _ _ | .fsub d _ _ | .fmul d _ _ | .fpow d _ _ => [d]
  | .ell2 d _ | .m2e d _ | .h2f d _ _ | .h2c d _ _ => [d, d + 1]

/-- Which commands raise which error, and at which stages (60_exceptions.md R251, R253). -/
def mayRaise : Instr → ErrCode → List Stage
  | _, .none => []
  | _, .illegalCmd => [0]
  | .fld _, .uninitialisedOperand => []
  | _, .uninitialisedOperand => [0]
  | .fld _, .invalidFieldElement => [0]
  | .finv _ _, .divByZero => [0]
  | .ell2 _ _, .noSquareRoot => [0]
  | .h2c _ _ _, .noSquareRoot => [3, 4]
  | .m2e _ _, .singularConversion => [0]
  | .h2c _ _ _, .singularConversion => [5, 6]
  | .h2f _ _ _, .externalInvalid => [1, 2]
  | .h2c _ _ _, .externalInvalid => [1, 2, 7, 8, 9, 10]
  | _, _ => []

/-! ### The hazards a host must respect -/

/-- The access is one the core supports (20_memory.md R72). -/
def accessSupported (c : Params) (a : Access) : Bool := (accessOffset c a).toOption.isSome

/-- Not an access the model refuses. -/
def Input.supported (c : Params) : Input → Bool
  | .hostRead a => accessSupported c a
  | .hostWrite a _ => accessSupported c a
  | .unit => true
  | .resetInput _ => true
  | .ports _ => true

/-- The input is a write to CMD. -/
def Input.writesCmd (c : Params) : Input → Bool
  | .hostWrite a _ => a == ⟨c.base + 0x014, 4⟩
  | .hostRead _ => false
  | .unit => false
  | .resetInput _ => false
  | .ports _ => false

/-- The next input respects the one-command-at-a-time rule (70_reset_and_hazards.md R295): no write to CMD while BUSY. -/
def State.respectsBusy (s : State) : Bool :=
  match s.inputs with
  | [] => true
  | i :: _ => !(s.status.busy && i.writesCmd s.build.toParams)

/-- A safe run of `n` steps: no step is refused, and every CMD write finds the unit IDLE. -/
def SafeRun : Nat → State → Prop
  | 0, _ => True
  | n + 1, s => s.respectsBusy = true ∧ ∃ t, step s = .next t ∧ SafeRun n t

end Sys2Proof.Machine
end

