-- ==== Sys2Proof/Certificates/Slice0/Obligations.lean ====
section
/-! DEFINITION. The statements about the model, and the vocabulary they are written in. -/

open Sys2Proof Sys2Proof.Machine

/-! ### Vocabulary: what a command leaves, written out as plain updates of the state -/

namespace Sys2Proof.Spec

/-- A command committed and wrote no register: only DONE and BUSY changed. That the latches CMDL and WSNAP keep their
contents, here and in `failed`, is the model's choice (assumption log 24). -/
def committed (s : State) : State := { s with status := { s.status with done := true, busy := false } }

/-- A command committed and wrote `v` to `F[fd]`. -/
def wrote (s : State) (fd : Reg) (v : Nat) : State :=
  { committed s with freg := s.freg.set fd (BitVec.ofNat 256 v), valid := s.valid.set fd true }

/-- A command committed and wrote `(x, y)` to the pair of registers `(rd, rd + 1)`. -/
def wrotePair (s : State) (rd : Reg) (x y : Nat) : State :=
  let rd' : Reg := rd + 1
  { committed s with
    freg := (s.freg.set rd (BitVec.ofNat 256 x)).set rd' (BitVec.ofNat 256 y)
    valid := (s.valid.set rd true).set rd' true }

/-- A command ended with an error: only STATUS changed, and in it only these fields. -/
def failed (s : State) (e : ErrCode) (stage : Stage) : State :=
  { s with
    status := { s.status with errcode := e, errstage := stage, err := true, done := true, busy := false } }

def withEq (s : State) (b : Bool) : State := { s with status := { s.status with eq := b } }
def withNr (s : State) (b : Bool) : State := { s with status := { s.status with nr := b } }
def withBr (s : State) (b : Bool) : State := { s with status := { s.status with br := b } }

/-- Every piece of state has the value of 10_state.md R54. -/
def AtReset (s : State) : Prop :=
  (∀ r : Reg, s.elem r = 0 ∧ s.isValid r = false) ∧ (∀ k : Fin 8, s.wbuf[k] = 0) ∧ s.cmd = 0 ∧ s.irqEn = false ∧
    s.status = { busy := false, done := false, err := false, coll := false, eq := false, nr := false, br := false,
                 errcode := .none, errstage := 0 } ∧
    outstanding s = none ∧ irq s = false

/-- The reset input is released and the host's next access is a 32-bit write of `v` at offset `off` of the window. -/
def WritesNext (s : State) (off : Nat) (v : Word) (rest : List Input) : Prop :=
  s.resetHeld = false ∧ s.inputs = .hostWrite ⟨s.build.base + off, 4⟩ v :: rest

/-- The reset input is released and the host's next access is a 32-bit read at offset `off` of the window. -/
def ReadsNext (s : State) (off : Nat) (rest : List Input) : Prop :=
  s.resetHeld = false ∧ s.inputs = .hostRead ⟨s.build.base + off, 4⟩ :: rest

/-- The reset input is released and the unit's step is next. -/
def UnitNext (s : State) (rest : List Input) : Prop := s.resetHeld = false ∧ s.inputs = .unit :: rest

/-- The host cannot write at this offset (10_state.md section 5: "RO"). -/
def ReadOnly (off : Nat) : Prop :=
  ∀ (s : State) (v : Word) (rest : List Input), WritesNext s off v rest → step s = .next { s with inputs := rest }

/-- What stands at this offset is a constant of the build (10_state.md R46 to R48). -/
def IsConstant (off : Nat) : Prop :=
  windowReg off = .id ∨ windowReg off = .version ∨ windowReg off = .paramInfo ∨
    ∃ k, windowReg off = .pWord k ∨ windowReg off = .jWord k ∨ windowReg off = .zWord k

/-- The words of one opcode (30_encoding.md R106): those whose fixed bits are right decode to the command, the others are
malformed. -/
def EncodedAs (op : BitVec 8) (mask fixed : Word) (command : Reg → Reg → Reg → Instr) : Prop :=
  ∀ w : Word, (w &&& mask = fixed → decode w = .ok (command (rdField w) (rs1Field w) (rs2Field w))) ∧
    (opField w = op → w &&& mask ≠ fixed → decode w = .error .fixedBits)

/-- The curve right-hand side as an integer remainder (00_scope.md R16). -/
def g (c : Params) (x : Nat) : Nat := (x * x * x + c.J * (x * x) + x) % c.p

/-- What H2F leaves when every request is answered (45_hash_to_curve.md R223, R224). -/
def afterH2f (ports : Ports) (s : State) (prd : Reg) (m d : Nat) : State :=
  let p := s.build.p
  let h1 := (ports.hash m 0 d).toNat
  let h2 := (ports.hash h1 1 d).toNat
  let asked1 := { s with requests := [.hash m 0 d] }
  let asked2 := { s with requests := [.hash m 0 d, .hash h1 1 d] }
  if p ≤ h1 then failed asked1 .externalInvalid 1
  else if p ≤ h2 then failed asked2 .externalInvalid 2
  else wrotePair asked2 prd h1 h2

/-- One answer of the group-law port as a point. -/
def sum (ports : Ports) (P Q : Point) : Point := ⟨(ports.edadd P Q).1.toNat, (ports.edadd P Q).2.toNat⟩

/-- What H2C leaves when every request is answered: the ten stages of 45_hash_to_curve.md R225. -/
def afterH2c (ports : Ports) (s : State) (prd : Reg) (m d : Nat) : State :=
  let c := s.build.toParams
  let p := c.p
  let h1 := (ports.hash m 0 d).toNat
  let h2 := (ports.hash h1 1 d).toNat
  let asked (more : List Request) : State := { s with requests := [.hash m 0 d, .hash h1 1 d] ++ more }
  if p ≤ h1 then failed { s with requests := [.hash m 0 d] } .externalInvalid 1
  else if p ≤ h2 then failed (asked []) .externalInvalid 2
  else
    match ell2Map c h1, ell2Map c h2 with
    | none, _ => failed (asked []) .noSquareRoot 3
    | some _, none => failed (asked []) .noSquareRoot 4
    | some M1, some M2 =>
      match montToEd p M1.point, montToEd p M2.point with
      | none, _ => failed (asked []) .singularConversion 5
      | some _, none => failed (asked []) .singularConversion 6
      | some E1, some E2 =>
        let R1 := sum ports E1 E2
        let R2 := sum ports R1 R1
        let R4 := sum ports R2 R2
        let R8 := sum ports R4 R4
        if p ≤ R1.x ∨ p ≤ R1.y then failed (asked [.edadd E1 E2]) .externalInvalid 7
        else if p ≤ R2.x ∨ p ≤ R2.y then failed (asked [.edadd E1 E2, .edadd R1 R1]) .externalInvalid 8
        else if p ≤ R4.x ∨ p ≤ R4.y then
          failed (asked [.edadd E1 E2, .edadd R1 R1, .edadd R2 R2]) .externalInvalid 9
        else if p ≤ R8.x ∨ p ≤ R8.y then
          failed (asked [.edadd E1 E2, .edadd R1 R1, .edadd R2 R2, .edadd R4 R4]) .externalInvalid 10
        else wrotePair (asked [.edadd E1 E2, .edadd R1 R1, .edadd R2 R2, .edadd R4 R4]) prd R8.x R8.y

/-- What a command leaves when the ports answer only the first `n` requests: what it would leave (`u`) if it makes no
more of them, else the state before with one request more than are answered on record, and the unit still BUSY. -/
def underLimit (n : Nat) (u s : State) : State :=
  if u.requests.length ≤ n then u else { s with requests := u.requests.take (n + 1) }

/-- `.unit` and reset aside, nothing an input does can touch a field register. -/
def touchesRegisters (c : Params) : Input → Bool
  | .unit => true
  | .resetInput _ => true
  | .hostWrite a v => a == ⟨c.base + 0x00C, 4⟩ && v[1]
  | .hostRead _ => false
  | .ports _ => false

end Sys2Proof.Spec

open Sys2Proof.Spec

/-! ### Reset -/

/-- 10_state.md R54: the state after reset. -/
def Obligations.ResetValues : Prop := AtReset State.reset

/-- 10_state.md R54, 70_reset_and_hazards.md R290 to R293: the reset input, asserted or released after that, and the soft
reset put every piece of state at its reset value, whatever was going on, and leave the build's constants. -/
def Obligations.ResetFromAnyState : Prop :=
  ∀ (s : State) (rest : List Input),
    (∃ level, s.inputs = .resetInput level :: rest ∧ (level = true ∨ s.resetHeld = true)) ∨
      (∃ v : Word, WritesNext s 0x00C v rest ∧ v[1] = true) →
    ∃ t, step s = .next t ∧ AtReset t ∧ t.inputs = rest ∧ t.build = s.build ∧
      ∀ off, IsConstant off → readWord t off = readWord s off

/-- 70_reset_and_hazards.md R290: on both edges of the reset input, and for as long as it is asserted, every piece of
state has its reset value whatever the host or the unit does; only its release ends that, and the core then accepts a
command at once. -/
def Obligations.ResetHeld : Prop :=
  (∀ (s : State) (level : Bool) (rest : List Input), s.inputs = .resetInput level :: rest →
    level = true ∨ s.resetHeld = true → ∃ t, step s = .next t ∧ AtReset t ∧ t.resetHeld = level) ∧
  (∀ s t : State, s.resetHeld = true → step s = .next t →
    AtReset t ∧ t.build = s.build ∧ (t.resetHeld = false → ∃ rest, s.inputs = .resetInput false :: rest)) ∧
  (∀ (s : State) (w : Word) (rest : List Input), s.resetHeld = true →
    s.inputs = .resetInput false :: .hostWrite ⟨s.build.base + 0x014, 4⟩ w :: rest →
    ∃ t, core.run 2 s = .next t ∧ t.status.busy = true ∧ t.cmdl = w ∧ t.inputs = rest)

/-- The model's own reading (assumption log 23), no rule of the spec: while the reset input is asserted an aligned 32-bit
access inside the window is answered, a write is lost and a read returns what the reset values show. -/
def Obligations.AccessesUnderReset : Prop :=
  ∀ (s : State) (v : Word) (off : Nat) (rest : List Input), s.resetHeld = true → off < 4096 → off % 4 = 0 →
    (s.inputs = .hostWrite ⟨s.build.base + off, 4⟩ v :: rest →
      ∃ t, step s = .next t ∧ AtReset t ∧ t.resetHeld = true ∧ t.inputs = rest ∧ t.rdata = s.rdata) ∧
    (s.inputs = .hostRead ⟨s.build.base + off, 4⟩ :: rest →
      ∃ t, step s = .next t ∧ AtReset t ∧ t.resetHeld = true ∧ t.inputs = rest ∧ t.rdata = readWord t off)

/-- The model's own reading (assumption log 25), no rule of the spec: a release of a reset input that is not asserted stands
for an assertion and its release with nothing in between, and so resets the core too. -/
def Obligations.ReleaseWithoutAssertion : Prop :=
  ∀ (s : State) (rest : List Input), s.resetHeld = false → s.inputs = .resetInput false :: rest →
    ∃ t, step s = .next t ∧ AtReset t ∧ t.resetHeld = false ∧ t.inputs = rest ∧ t.build = s.build ∧
      ∀ off, IsConstant off → readWord t off = readWord s off

/-! ### Encoding -/

/-- 95_test_vectors.md section 7: legal words of every format, and illegal ones. -/
def Obligations.SpecWordsDecode : Prop :=
  decode 0x01200000#32 = .ok (.fld 2) ∧ decode 0x02010000#32 = .ok (.fmov 0 1) ∧
  decode 0x10312000#32 = .ok (.fadd 3 1 2) ∧ decode 0x11312000#32 = .ok (.fsub 3 1 2) ∧
  decode 0x12312000#32 = .ok (.fmul 3 1 2) ∧ decode 0x13210000#32 = .ok (.fneg 2 1) ∧
  decode 0x14210000#32 = .ok (.finv 2 1) ∧ decode 0x15312000#32 = .ok (.fpow 3 1 2) ∧
  decode 0x16012000#32 = .ok (.feq 1 2) ∧ decode 0x20210000#32 = .ok (.fsqrt 2 1) ∧
  decode 0x30200000#32 = .ok (.ell2 2 0) ∧ decode 0x38420000#32 = .ok (.m2e 4 2) ∧
  decode 0x40EFF000#32 = .ok (.h2f 14 15 15) ∧ decode 0x41601000#32 = .ok (.h2c 6 0 1) ∧
  decode 0x00000000#32 = .error .unassignedOpcode ∧ decode 0x10312001#32 = .error .fixedBits ∧
  decode 0x13211000#32 = .error .fixedBits ∧ decode 0x16112000#32 = .error .fixedBits ∧
  decode 0x38410000#32 = .error .fixedBits ∧ decode 0x41501000#32 = .error .fixedBits

/-- Every command survives encoding and decoding, with every operand at every value the encoding admits. -/
def Obligations.EncodeThenDecode : Prop := ∀ i : Instr, i.wellFormed = true → decode (encode i) = .ok i

/-- A word that decodes is the encoding of a well-formed command: no bit of it is ignored (30_encoding.md R103, R104). -/
def Obligations.DecodeThenEncode : Prop :=
  ∀ (w : Word) (i : Instr), decode w = .ok i → i.wellFormed = true ∧ encode i = w

/-- 30_encoding.md R107: a word is illegal exactly when it fits no row of the opcode map; it is accepted all the same, and
its execution ends with ILLEGAL_CMD, DONE and ERR set, no register and no flag written. What the latches hold afterwards is
left free: the spec discards them (10_state.md R52). -/
def Obligations.IllegalWords : Prop :=
  (∀ w : Word, (∃ e, decode w = .error e) ↔
    ∀ row ∈ [(0xFF0FFFFF#32, 0x01000000#32), (0xFF00FFFF#32, 0x02000000#32), (0xFF000FFF#32, 0x10000000#32),
      (0xFF000FFF#32, 0x11000000#32), (0xFF000FFF#32, 0x12000000#32), (0xFF00FFFF#32, 0x13000000#32),
      (0xFF00FFFF#32, 0x14000000#32), (0xFF000FFF#32, 0x15000000#32), (0xFFF00FFF#32, 0x16000000#32),
      (0xFF00FFFF#32, 0x20000000#32), (0xFF10FFFF#32, 0x30000000#32), (0xFF11FFFF#32, 0x38000000#32),
      (0xFF100FFF#32, 0x40000000#32), (0xFF100FFF#32, 0x41000000#32)], w &&& row.1 ≠ row.2) ∧
  ∀ (s : State) (w : Word) (rest : List Input), (∃ e, decode w = .error e) → s.status.busy = false →
    WritesNext s 0x014 w (.unit :: rest) →
    ∃ t, core.run 2 s = .next t ∧
      t = { s with
        inputs := rest, cmdl := t.cmdl, cmd := w, requests := [], wsnap := t.wsnap
        status := { s.status with
          busy := false, done := true, err := true, errcode := .illegalCmd, errstage := 0 } }

/-! ### The command lifecycle -/

/-- The step of a BUSY unit executes the command its latch holds, whether the schedule calls for the unit or nothing
else is left to happen; and a command placed by `withFetchWord` is the next to run. The schedule and the placing are the
model's choices (assumption log 3, 5 and 9). -/
def Obligations.StepRunsLatchedCommand : Prop :=
  (∀ (s : State) (i : Instr) (rest : List Input), UnitNext s rest → s.status.busy = true →
    decode s.cmdl = .ok i → step s = exec i { s with inputs := rest }) ∧
  (∀ (s : State) (i : Instr), s.resetHeld = false → s.inputs = [] → s.status.busy = true → decode s.cmdl = .ok i →
    step s = exec i s) ∧
  (∀ (s : State) (i : Instr), i.wellFormed = true →
    step (s.withFetchWord 32 (encode i).toNat) =
      exec i { s with
        cmdl := encode i, cmd := encode i, wsnap := joinWords s.wbuf, requests := [], resetHeld := false
        status := { s.status with busy := true, done := false, err := false, errcode := .none, errstage := 0 } })

/-- 30_encoding.md R107, 60_exceptions.md R251: an illegal word ends with ILLEGAL_CMD and changes nothing else; so does
a command term whose pair field is odd. -/
def Obligations.IllegalCommandEnds : Prop :=
  (∀ (s : State) (e : Illegal) (rest : List Input), UnitNext s rest → s.status.busy = true →
    decode s.cmdl = .error e → step s = .next (failed { s with inputs := rest } .illegalCmd 0)) ∧
  (∀ (s : State) (i : Instr), i.wellFormed = false → exec i s = .next (failed s .illegalCmd 0))

/-- 10_state.md R38, R41: acceptance of any word by an IDLE unit, none by a BUSY one, and decoding at execution. -/
def Obligations.CommandAccepted : Prop :=
  (∀ (s : State) (w : Word) (rest : List Input), WritesNext s 0x014 w rest → s.status.busy = false →
    ∃ t, step s = .next t ∧
      t = { s with
        inputs := rest, cmdl := w, cmd := w, requests := [], wsnap := t.wsnap
        status := { s.status with busy := true, done := false, err := false, errcode := .none, errstage := 0 } } ∧
      readWord t 0x014 = w ∧ ∀ k : Fin 8, t.wsnap.extractLsb' (32 * k.val) 32 = s.wbuf[k]) ∧
  (∀ (s : State) (w : Word) (rest : List Input), WritesNext s 0x014 w rest → s.status.busy = true →
    ∃ t, step s = .next t ∧ t.cmdl = s.cmdl ∧ readWord t 0x014 = readWord s 0x014 ∧ t.wsnap = s.wsnap) ∧
  (∀ (s : State) (e : Illegal), s.status.busy = true → decode s.cmdl = .error e →
    unitStep s = .next (failed s .illegalCmd 0))

/-- 10_state.md R41: CMD reads the last accepted word, also while BUSY and after an error, and 0 after reset: acceptance
puts the word there, and nothing but acceptance and reset changes it. -/
def Obligations.CmdReadsLastAccepted : Prop :=
  (∀ s : State, readWord s 0x014 = s.cmd) ∧ (∀ s : State, s.Inv → s.status.busy = true → readWord s 0x014 = s.cmdl) ∧
  (∀ s : State, AtReset s → readWord s 0x014 = 0) ∧
  (∀ (s : State) (w : Word) (rest : List Input), WritesNext s 0x014 w rest → s.status.busy = false →
    ∃ t, step s = .next t ∧ readWord t 0x014 = w) ∧
  (∀ s t : State, step s = .next t → ¬ AtReset t →
    (∀ w rest, WritesNext s 0x014 w rest → s.status.busy = true) → readWord t 0x014 = readWord s 0x014)

/-- 60_exceptions.md R255: a CMD write while BUSY is dropped and recorded in COLL, which only the host's clear or a reset
takes away (a release of a reset input that is not asserted is a reset by the model's choice, assumption log 25). -/
def Obligations.CommandCollision : Prop :=
  (∀ (s : State) (w : Word) (rest : List Input), WritesNext s 0x014 w rest → s.status.busy = true →
    step s = .next { s with inputs := rest, status := { s.status with coll := true } }) ∧
  (∀ s t : State, step s = .next t → s.status.coll = true → t.status.coll = false →
    s.resetHeld = true ∨ ∃ rest, (∃ level, s.inputs = .resetInput level :: rest) ∨
      (∃ v : Word, WritesNext s 0x00C v rest ∧ v[1] = true) ∨ (∃ v : Word, WritesNext s 0x010 v rest ∧ v[3] = true))

/-- 60_exceptions.md R257: the host's acknowledgement of an error leaves nothing of it but the word in CMD. -/
def Obligations.ErrorAcknowledged : Prop :=
  ∀ (s : State) (rest : List Input), WritesNext s 0x010 0x00000006 rest → s.status.err = true →
    step s = .next { s with
      inputs := rest, status := { s.status with done := false, err := false, errcode := .none, errstage := 0 } }

/-- 60_exceptions.md R252, R259: whatever command raises an error, everything but STATUS and the record of its external
requests is as it was at acceptance, and STATUS changes in the error fields, DONE and BUSY alone. -/
def Obligations.ErrorsArePrecise : Prop :=
  ∀ (s t : State) (i : Instr), s.status.err = false → exec i s = .next t → t.status.err = true →
    t = failed { s with requests := t.requests } t.status.errcode t.status.errstage

/-- 60_exceptions.md R251, R253: which command can end with which error, at which stage, and the error's code. -/
def Obligations.ErrorTable : Prop :=
  (∀ (s t : State) (i : Instr), s.status.err = false → exec i s = .next t → t.status.err = true →
    t.status.errstage ∈ mayRaise i t.status.errcode) ∧
  ErrCode.none.code = 0 ∧ ErrCode.illegalCmd.code = 1 ∧ ErrCode.invalidFieldElement.code = 2 ∧
  ErrCode.divByZero.code = 3 ∧ ErrCode.noSquareRoot.code = 4 ∧ ErrCode.singularConversion.code = 5 ∧
  ErrCode.uninitialisedOperand.code = 6 ∧ ErrCode.externalInvalid.code = 7

/-- 10_state.md R35: a source register nothing has written ends the command before any computation. -/
def Obligations.UninitialisedOperand : Prop :=
  ∀ (s : State) (i : Instr) (r : Reg), i.wellFormed = true → r ∈ sources i → s.isValid r = false →
    exec i s = .next (failed s .uninitialisedOperand 0)

/-- What a command leaves alone: every register but its destinations, every flag but its own, COLL, every control
register, latch and constant, and every byte of the window but those of STATUS, VALIDR and its destinations. That the
latches keep their contents after completion is the model's choice (assumption log 24). -/
def Obligations.CommandFrame : Prop :=
  ∀ (s t : State) (i : Instr), exec i s = .next t →
    (t.build = s.build ∧ t.wbuf = s.wbuf ∧ t.cmd = s.cmd ∧ t.cmdl = s.cmdl ∧ t.wsnap = s.wsnap ∧ t.irqEn = s.irqEn ∧
      t.resetHeld = s.resetHeld ∧ t.rdata = s.rdata ∧ t.inputs = s.inputs ∧ t.portLimit = s.portLimit ∧
      t.status.coll = s.status.coll) ∧
    (∀ r : Reg, r ∉ destinations i → t.elem r = s.elem r ∧ t.isValid r = s.isValid r) ∧
    (t.status.eq ≠ s.status.eq → ∃ a b, i = .feq a b) ∧
    (t.status.nr ≠ s.status.nr → ∃ d a, i = .fsqrt d a) ∧
    (t.status.br ≠ s.status.br → ∃ d a, i = .ell2 d a) ∧
    (t.requests ≠ s.requests → ∃ d a b, i = .h2f d a b ∨ i = .h2c d a b) ∧
    (∀ off : Nat, windowReg (off - off % 4) ≠ .status → windowReg (off - off % 4) ≠ .validr →
      (∀ r k, windowReg (off - off % 4) = .freg r k → r ∉ destinations i) → windowByte t off = windowByte s off)

/-! ### The commands -/

/-- 40_field_transfer.md R130: FLD. -/
def Obligations.FldLoadsCanonicalValue : Prop :=
  EncodedAs 0x01 0xFF0FFFFF 0x01000000 (fun rd _ _ => .fld rd) ∧
  ∀ (s : State) (fd : Reg),
    (s.wsnap.toNat < s.build.p → exec (.fld fd) s = .next (wrote s fd s.wsnap.toNat)) ∧
    (s.build.p ≤ s.wsnap.toNat → exec (.fld fd) s = .next (failed s .invalidFieldElement 0))

/-- 40_field_transfer.md R131: FMOV. -/
def Obligations.FmovCopies : Prop :=
  EncodedAs 0x02 0xFF00FFFF 0x02000000 (fun rd rs1 _ => .fmov rd rs1) ∧
  ∀ (s : State) (fd a : Reg),
    (s.isValid a = true → exec (.fmov fd a) s = .next (wrote s fd (s.elem a))) ∧
    (s.isValid a = false → exec (.fmov fd a) s = .next (failed s .uninitialisedOperand 0))

/-- 41_field_arith.md R140 to R144: FADD, FSUB, FMUL and FNEG of canonical operands, by the formulas of R140. -/
def Obligations.AddSubMulNegResults : Prop :=
  EncodedAs 0x10 0xFF000FFF 0x10000000 .fadd ∧ EncodedAs 0x11 0xFF000FFF 0x11000000 .fsub ∧
  EncodedAs 0x12 0xFF000FFF 0x12000000 .fmul ∧
  EncodedAs 0x13 0xFF00FFFF 0x13000000 (fun rd rs1 _ => .fneg rd rs1) ∧
  (∀ (s : State) (fd a b : Reg), s.isValid a = true → s.isValid b = true → s.elem a < s.build.p → s.elem b < s.build.p →
    exec (.fadd fd a b) s = .next (wrote s fd
      (if s.build.p ≤ s.elem a + s.elem b then s.elem a + s.elem b - s.build.p else s.elem a + s.elem b)) ∧
    exec (.fsub fd a b) s = .next (wrote s fd
      (if s.elem a < s.elem b then s.elem a + s.build.p - s.elem b else s.elem a - s.elem b)) ∧
    exec (.fmul fd a b) s = .next (wrote s fd (s.elem a * s.elem b % s.build.p))) ∧
  (∀ (s : State) (fd a : Reg), s.isValid a = true → s.elem a < s.build.p →
    exec (.fneg fd a) s = .next (wrote s fd (if s.elem a = 0 then 0 else s.build.p - s.elem a))) ∧
  (∀ (s : State) (fd a b : Reg), s.isValid a = false ∨ s.isValid b = false →
    exec (.fadd fd a b) s = .next (failed s .uninitialisedOperand 0) ∧
    exec (.fsub fd a b) s = .next (failed s .uninitialisedOperand 0) ∧
    exec (.fmul fd a b) s = .next (failed s .uninitialisedOperand 0)) ∧
  (∀ (s : State) (fd a : Reg), s.isValid a = false → exec (.fneg fd a) s = .next (failed s .uninitialisedOperand 0))

/-- 41_field_arith.md R145: FINV writes the unique inverse, and the inverse of 0 is DIV_BY_ZERO. -/
def Obligations.FinvWritesTheInverse : Prop :=
  EncodedAs 0x14 0xFF00FFFF 0x14000000 (fun rd rs1 _ => .finv rd rs1) ∧
  ∀ (s : State) (fd a : Reg),
    (s.isValid a = true → s.elem a < s.build.p → s.elem a ≠ 0 →
      ∃ x, x < s.build.p ∧ s.elem a * x % s.build.p = 1 ∧
        (∀ y, y < s.build.p → s.elem a * y % s.build.p = 1 → y = x) ∧ exec (.finv fd a) s = .next (wrote s fd x)) ∧
    (s.isValid a = true → s.elem a = 0 → exec (.finv fd a) s = .next (failed s .divByZero 0)) ∧
    (s.isValid a = false → exec (.finv fd a) s = .next (failed s .uninitialisedOperand 0))

/-- 41_field_arith.md R146: FPOW writes the power, also for exponent 0. -/
def Obligations.FpowWritesThePower : Prop :=
  EncodedAs 0x15 0xFF000FFF 0x15000000 .fpow ∧
  ∀ (s : State) (fd a b : Reg),
    (s.isValid a = true → s.isValid b = true →
      exec (.fpow fd a b) s = .next (wrote s fd (s.elem a ^ s.elem b % s.build.p))) ∧
    (s.isValid a = false ∨ s.isValid b = false → exec (.fpow fd a b) s = .next (failed s .uninitialisedOperand 0))

/-- 41_field_arith.md R147: FEQ writes EQ and no register. -/
def Obligations.FeqSetsEq : Prop :=
  EncodedAs 0x16 0xFFF00FFF 0x16000000 (fun _ rs1 rs2 => .feq rs1 rs2) ∧
  ∀ (s : State) (a b : Reg),
    (s.isValid a = true → s.isValid b = true → s.elem a = s.elem b →
      exec (.feq a b) s = .next (committed (withEq s true))) ∧
    (s.isValid a = true → s.isValid b = true → s.elem a ≠ s.elem b →
      exec (.feq a b) s = .next (committed (withEq s false))) ∧
    (s.isValid a = false ∨ s.isValid b = false → exec (.feq a b) s = .next (failed s .uninitialisedOperand 0))

/-- 42_sqrt.md R171 to R173: in every valid build the Tonelli–Shanks loop finds the root that is at most `(p - 1) / 2`, and
answers "no root" exactly for the non-squares, without an error and without writing a register. -/
def Obligations.FsqrtFindsTheSmallRoot : Prop :=
  EncodedAs 0x20 0xFF00FFFF 0x20000000 (fun rd rs1 _ => .fsqrt rd rs1) ∧
  ∀ (s : State) (fd a : Reg),
    (s.isValid a = true → s.elem a < s.build.p →
      (∀ y, y ≤ (s.build.p - 1) / 2 → y * y % s.build.p = s.elem a →
        exec (.fsqrt fd a) s = .next (wrote (withNr s false) fd y)) ∧
      ((∀ y, y < s.build.p → y * y % s.build.p ≠ s.elem a) →
        exec (.fsqrt fd a) s = .next (committed (withNr s true)))) ∧
    (s.isValid a = false → exec (.fsqrt fd a) s = .next (failed s .uninitialisedOperand 0))

/-- 43_elligator2.md R190 to R195: ELL2, its intermediates and roots given by what they are instead of how they are
computed. `x1` is the element with `x1 · safe = -J`, `x2 = -x1 - J`; the first branch takes the odd root (or 0), the
second the even one; with no root in either branch the command ends with NO_SQUARE_ROOT. -/
def Obligations.Ell2MapsByBranch : Prop :=
  EncodedAs 0x30 0xFF10FFFF 0x30000000 (fun rd rs1 _ => .ell2 rd rs1) ∧
  ∀ (s : State) (prd a : Reg) (safe : Nat),
    prd.val % 2 = 0 → s.isValid a = true →
    safe = (if (1 + s.build.z * (s.elem a * s.elem a)) % s.build.p = 0 then s.build.z
            else (1 + s.build.z * (s.elem a * s.elem a)) % s.build.p) →
    ∃ x1 x2, x1 < s.build.p ∧ x2 < s.build.p ∧ (x1 * safe + s.build.J) % s.build.p = 0 ∧
      (x2 + x1 + s.build.J) % s.build.p = 0 ∧
      (∀ y, y < s.build.p → y * y % s.build.p = g s.build.toParams x1 → y % 2 = 1 ∨ y = 0 →
        exec (.ell2 prd a) s = .next (wrotePair (withBr s false) prd x1 y)) ∧
      ((∀ y, y < s.build.p → y * y % s.build.p ≠ g s.build.toParams x1) →
        (∀ y, y < s.build.p → y * y % s.build.p = g s.build.toParams x2 → y % 2 = 0 →
          exec (.ell2 prd a) s = .next (wrotePair (withBr s true) prd x2 y)) ∧
        ((∀ y, y < s.build.p → y * y % s.build.p ≠ g s.build.toParams x2) →
          exec (.ell2 prd a) s = .next (failed s .noSquareRoot 0)))

/-- 43_elligator2.md R194, R196: outside the exceptional case ELL2 completes with a point of the Montgomery curve, whose `y`
is odd or 0 in the first branch and even in the second. -/
def Obligations.Ell2CompletesOnTheCurve : Prop :=
  ∀ (s : State) (prd a : Reg), prd.val % 2 = 0 → s.isValid a = true →
    (1 + s.build.z * (s.elem a * s.elem a)) % s.build.p ≠ 0 →
    ∃ x y br, exec (.ell2 prd a) s = .next (wrotePair (withBr s br) prd x y) ∧ x < s.build.p ∧ y < s.build.p ∧
      y * y % s.build.p = g s.build.toParams x ∧ (br = false → y % 2 = 1 ∨ y = 0) ∧ (br = true → y % 2 = 0)

/-- 43_elligator2.md R194: the map fails only in the exceptional case, and that needs `p mod 4 = 3`. -/
def Obligations.Ell2FailsOnlyExceptionally : Prop :=
  ∀ (b : Build) (u : Nat), ell2Map b.toParams u = none → (1 + b.z * (u * u)) % b.p = 0 ∧ b.p % 4 = 3

/-- 43_elligator2.md R196 item 3: `u` and `-u` are mapped to the same point, by the same branch. -/
def Obligations.Ell2EvenInItsInput : Prop :=
  ∀ (b : Build) (u : Nat), u < b.p → ell2Map b.toParams (b.p - u) = ell2Map b.toParams u

/-- 43_elligator2.md R197: the image of 0. -/
def Obligations.Ell2AtZero : Prop :=
  ∀ b : Build,
    (∀ y, y < b.p → y * y % b.p = b.p - b.J → y % 2 = 1 → ell2Map b.toParams 0 = some ⟨⟨b.p - b.J, y⟩, false⟩) ∧
    ((∀ y, y < b.p → y * y % b.p ≠ b.p - b.J) → ell2Map b.toParams 0 = some ⟨⟨0, 0⟩, true⟩)

/-- 44_conversion.md R210 to R212: M2E. -/
def Obligations.M2eConverts : Prop :=
  EncodedAs 0x38 0xFF11FFFF 0x38000000 (fun rd rs1 _ => .m2e rd rs1) ∧
  ∀ (s : State) (prd a : Reg), prd.val % 2 = 0 → a.val % 2 = 0 →
    (s.isValid a = true → s.isValid (a + 1) = true → s.elem a < s.build.p → s.elem (a + 1) < s.build.p →
      (s.elem (a + 1) ≠ 0 → s.elem a ≠ s.build.p - 1 →
        ∃ xE yE, xE < s.build.p ∧ yE < s.build.p ∧ xE * s.elem (a + 1) % s.build.p = s.elem a ∧
          yE * (s.elem a + 1) % s.build.p = (s.elem a + (s.build.p - 1)) % s.build.p ∧
          exec (.m2e prd a) s = .next (wrotePair s prd xE yE)) ∧
      (s.elem (a + 1) = 0 ∨ s.elem a = s.build.p - 1 →
        exec (.m2e prd a) s = .next (failed s .singularConversion 0))) ∧
    (s.isValid a = false ∨ s.isValid (a + 1) = false →
      exec (.m2e prd a) s = .next (failed s .uninitialisedOperand 0))

/-- 44_conversion.md R213: the converter takes the Montgomery curve to the twisted Edwards curve with `a = J + 2` and
`d = J - 2` (written here with `d + 4 = a`, as `J + p - 2`). -/
def Obligations.M2eLandsOnEdwardsCurve : Prop :=
  ∀ (b : Build) (P E : Point), P.x < b.p → P.y < b.p → P.y * P.y % b.p = g b.toParams P.x → montToEd b.p P = some E →
    ((b.J + 2) * (E.x * E.x) + E.y * E.y) % b.p = (1 + (b.J + b.p - 2) * (E.x * E.x * (E.y * E.y))) % b.p

/-- 45_hash_to_curve.md R223, R224, R228: H2F over any ports that answer, and so over the build's own. -/
def Obligations.H2fOutcome : Prop :=
  EncodedAs 0x40 0xFF100FFF 0x40000000 .h2f ∧
  ∀ (s : State) (prd a b : Reg), prd.val % 2 = 0 →
    (s.isValid a = true → s.isValid b = true → s.portLimit = none →
      (∀ ports, h2fOver ports prd a b s = .next (afterH2f ports s prd (s.elem a) (s.elem b))) ∧
      exec (.h2f prd a b) s = .next (afterH2f (Config.ports s.build.toParams) s prd (s.elem a) (s.elem b))) ∧
    (s.isValid a = false ∨ s.isValid b = false → exec (.h2f prd a b) s = .next (failed s .uninitialisedOperand 0))

/-- 45_hash_to_curve.md R225 to R229: H2C over any ports that answer, and so over the build's own: the stages in order,
the first failure reported with its stage, the requests of a success two and four. -/
def Obligations.H2cOutcome : Prop :=
  EncodedAs 0x41 0xFF100FFF 0x41000000 .h2c ∧
  ∀ (s : State) (prd a b : Reg), prd.val % 2 = 0 →
    (s.isValid a = true → s.isValid b = true → s.portLimit = none →
      (∀ ports, h2cOver ports prd a b s = .next (afterH2c ports s prd (s.elem a) (s.elem b))) ∧
      exec (.h2c prd a b) s = .next (afterH2c (Config.ports s.build.toParams) s prd (s.elem a) (s.elem b))) ∧
    (s.isValid a = false ∨ s.isValid b = false → exec (.h2c prd a b) s = .next (failed s .uninitialisedOperand 0))

/-- 45_hash_to_curve.md R230 item 1: two H2C executions with the same operands give the same point or the same error,
whatever else differs between the two states and whichever registers hold the operands. -/
def Obligations.H2cDependsOnOperandsOnly : Prop :=
  ∀ (s1 s2 t1 t2 : State) (d1 a1 b1 d2 a2 b2 : Reg), s1.build = s2.build → s1.portLimit = none → s2.portLimit = none →
    s1.status.err = false → s2.status.err = false → d1.val % 2 = 0 → d2.val % 2 = 0 →
    s1.isValid a1 = true → s1.isValid b1 = true → s2.isValid a2 = true → s2.isValid b2 = true →
    s1.elem a1 = s2.elem a2 → s1.elem b1 = s2.elem b2 →
    exec (.h2c d1 a1 b1) s1 = .next t1 → exec (.h2c d2 a2 b2) s2 = .next t2 →
    t1.status.err = t2.status.err ∧ t1.requests = t2.requests ∧
    (t1.status.err = true → t1.status.errcode = t2.status.errcode ∧ t1.status.errstage = t2.status.errstage) ∧
    (t1.status.err = false → t1.elem d1 = t2.elem d2 ∧ t1.elem (d1 + 1) = t2.elem (d2 + 1))

/-- 70_reset_and_hazards.md R301, 45_hash_to_curve.md R228: a port that falls silent at any request leaves the command
BUSY at it, nothing written and the requests made so far on record, at every further step of the unit; a command that
makes no more requests than are answered completes as if all were. That the ports' silence is a limit is the model's
choice (assumption log 8). -/
def Obligations.SilentPortHangsTheUnit : Prop :=
  (∀ (ports : Ports) (s : State) (d a b : Reg) (n : Nat), d.val % 2 = 0 → s.isValid a = true → s.isValid b = true →
    s.portLimit = some n →
    h2fOver ports d a b s =
      .next (underLimit (max n (s.requests.length - 1)) (afterH2f ports s d (s.elem a) (s.elem b)) s) ∧
    h2cOver ports d a b s =
      .next (underLimit (max n (s.requests.length - 1)) (afterH2c ports s d (s.elem a) (s.elem b)) s)) ∧
  (∀ (s : State) (d a b : Reg) (n k : Nat), d.val % 2 = 0 → s.isValid a = true → s.isValid b = true →
    s.portLimit = some n → s.requests = [] → s.resetHeld = false → s.status.busy = true →
    s.inputs = List.replicate (k + 1) .unit →
    let ports := Config.ports s.build.toParams
    let t := { s with inputs := [] }
    (s.cmdl = encode (.h2f d a b) →
      core.run (k + 1) s = .next (underLimit n (afterH2f ports t d (s.elem a) (s.elem b)) t)) ∧
    (s.cmdl = encode (.h2c d a b) →
      core.run (k + 1) s = .next (underLimit n (afterH2c ports t d (s.elem a) (s.elem b)) t)))

/-! ### The register window -/

/-- 10_state.md R43: what a write to STATUS clears, BUSY or not; reading it has no side effect. -/
def Obligations.StatusWriteClears : Prop :=
  (∀ (s : State) (rest : List Input), ReadsNext s 0x010 rest →
    step s = .next { s with inputs := rest, rdata := s.status.word }) ∧
  ∀ (s : State) (v : Word) (rest : List Input), WritesNext s 0x010 v rest →
    step s = .next { s with
      inputs := rest
      status := { s.status with
        done := s.status.done && !v[1]
        err := s.status.err && !v[1] && !v[2]
        errcode := if v[1] || v[2] then .none else s.status.errcode
        errstage := if v[1] || v[2] then 0 else s.status.errstage
        coll := s.status.coll && !v[3] } }

/-- 10_state.md R44: CTRL. -/
def Obligations.CtrlWrite : Prop :=
  (∀ (s : State) (v : Word) (rest : List Input), WritesNext s 0x00C v rest → v[1] = false →
    step s = .next { s with inputs := rest, irqEn := v[0] }) ∧
  (∀ (s : State) (v : Word) (rest : List Input), WritesNext s 0x00C v rest → v[1] = true →
    ∃ t, step s = .next t ∧ AtReset t) ∧
  (∀ s : State, (readWord s 0x00C).toNat = s.irqEn.toNat)

/-- 10_state.md R45: a write to a word of WBUF changes that word alone and is read back; the eight words are the 256-bit
value, least significant first. -/
def Obligations.WbufReadsBack : Prop :=
  (∀ (s : State) (k : Fin 8) (v : Word) (rest : List Input), WritesNext s (0x040 + 4 * k.val) v rest →
    ∃ t, step s = .next t ∧ t = { s with inputs := rest, wbuf := t.wbuf } ∧ readWord t (0x040 + 4 * k.val) = v ∧
      ∀ j : Fin 8, j ≠ k → readWord t (0x040 + 4 * j.val) = readWord s (0x040 + 4 * j.val)) ∧
  (∀ k : Fin 8, readWord State.reset (0x040 + 4 * k.val) = 0) ∧
  (∀ s : State, (joinWords s.wbuf).toNat =
    ((List.finRange 8).map fun k : Fin 8 => (readWord s (0x040 + 4 * k.val)).toNat * 2 ^ (32 * k.val)).sum)

/-- 20_memory.md R73, R74: a write to a read-only register or a reserved offset changes nothing, and a reserved offset
reads 0. -/
def Obligations.ReadOnlyAndReserved : Prop :=
  (∀ off : Nat, off < 4096 → off % 4 = 0 → off ≠ 0x00C → off ≠ 0x010 → off ≠ 0x014 → off < 0x040 ∨ 0x060 ≤ off →
    ReadOnly off) ∧
  (∀ (s : State) (off : Nat) (rest : List Input), ReadsNext s off rest → off < 4096 → off % 4 = 0 →
    (0x01C ≤ off ∧ off < 0x040) ∨ (0x060 ≤ off ∧ off < 0x100) ∨ (0x160 ≤ off ∧ off < 0x400) ∨ 0x600 ≤ off →
    step s = .next { s with inputs := rest, rdata := 0 })

/-- 20_memory.md R78: a read changes nothing in the core; what the host gets is `readWord`. The field
`rdata` is the model's own (assumption log 3). -/
def Obligations.ReadsHaveNoSideEffect : Prop :=
  ∀ (s : State) (off : Nat) (rest : List Input), ReadsNext s off rest → off < 4096 → off % 4 = 0 →
    step s = .next { s with inputs := rest, rdata := readWord s off }

/-- 20_memory.md R72: an access that is not an aligned 32-bit one inside the window is refused, as the rule asks of a model
(assumption log 10 and 11). -/
def Obligations.UnsupportedAccessRefused : Prop :=
  ∀ (s : State) (a : Access) (v : Word) (rest : List Input),
    a.bytes ≠ 4 ∨ (a.addr - s.build.base) % 4 ≠ 0 ∨ a.addr < s.build.base ∨ s.build.base + 4096 < a.addr + a.bytes →
    (s.inputs = .hostRead a :: rest → ∃ r, step s = .refused r) ∧
    (s.inputs = .hostWrite a v :: rest → ∃ r, step s = .refused r)

/-- 10_state.md R46: the identity registers. -/
def Obligations.IdentityRegisters : Prop :=
  (∀ s : State, readWord s 0x000 = 0x48324331#32 ∧ readWord s 0x004 = 0x00000001#32) ∧ ReadOnly 0x000 ∧ ReadOnly 0x004

/-- 10_state.md R47: PARAM_INFO. -/
def Obligations.ParamInfoFields : Prop :=
  (∀ s : State, (readWord s 0x008).extractLsb' 0 8 = 16#8 ∧ (readWord s 0x008).extractLsb' 8 8 = 8#8 ∧
    (readWord s 0x008).extractLsb' 24 8 = 0#8 ∧
    ∃ v q, ((readWord s 0x008).extractLsb' 16 8).toNat = v ∧ s.build.p - 1 = 2 ^ v * q ∧ q % 2 = 1) ∧
  (∀ s : State, s.build = Build.bjj → readWord s 0x008 = 0x001C0810#32) ∧ ReadOnly 0x008

/-- 10_state.md R48, 20_memory.md R71 and R76: the windows of `p`, `J` and `z`, of WBUF, and of a field register, show the
value least significant word first; the bits of a canonical value from the length of `p` up are 0. -/
def Obligations.ValueWindows : Prop :=
  (∀ k : Fin 8, ReadOnly (0x100 + 4 * k.val) ∧ ReadOnly (0x120 + 4 * k.val) ∧ ReadOnly (0x140 + 4 * k.val)) ∧
  (∀ s : State, s.build = Build.bjj →
    readWord s 0x100 = 0xf0000001#32 ∧ readWord s 0x11C = 0x30644e72#32 ∧ readWord s 0x120 = 0x000292fa#32 ∧
      (s.Canonical → ∀ r : Reg, (readWord s (0x400 + 0x20 * r.val + 28)).extractLsb' 30 2 = 0)) ∧
  (∀ (s : State) (n : Nat) (r : Reg), s.Canonical → s.build.p < 2 ^ n → s.elem r < 2 ^ n) ∧
  (∀ (r : Reg) (k : Fin 8), ReadOnly (0x400 + 0x20 * r.val + 4 * k.val)) ∧
  ∀ s : State,
    let shown (base : Nat) := ((List.finRange 8).map fun k : Fin 8 =>
      (readWord s (base + 4 * k.val)).toNat * 2 ^ (32 * k.val)).sum
    shown 0x040 = (joinWords s.wbuf).toNat ∧ shown 0x100 = s.build.p ∧ shown 0x120 = s.build.J ∧
      shown 0x140 = s.build.z ∧ ∀ r : Reg, shown (0x400 + 0x20 * r.val) = s.elem r

/-- 10_state.md R42: the bits of STATUS. -/
def Obligations.StatusLayout : Prop :=
  ∀ s : State,
    let w := readWord s 0x010
    w[0] = s.status.busy ∧ w[1] = s.status.done ∧ w[2] = s.status.err ∧ w[3] = s.status.coll ∧ w[4] = s.status.eq ∧
    w[5] = s.status.nr ∧ w[6] = s.status.br ∧ w[7] = false ∧ w.extractLsb' 8 8 = s.status.errcode.code ∧
    (w.extractLsb' 16 8).toNat = s.status.errstage.val ∧ w.extractLsb' 24 8 = 0

/-- 10_state.md R49: VALIDR. -/
def Obligations.ValidRegisterBits : Prop :=
  (∀ (s : State) (r : Reg), (readWord s 0x018).getLsbD r.val = s.isValid r) ∧
  (∀ s : State, (readWord s 0x018).extractLsb' 16 16 = 0) ∧ readWord State.reset 0x018 = 0 ∧ ReadOnly 0x018

/-- 10_state.md R51, 60_exceptions.md R256: the interrupt output, and the host's `clr` that lowers it. -/
def Obligations.InterruptLevel : Prop :=
  (∀ s : State, irq s = true ↔ s.irqEn = true ∧ (s.status.done = true ∨ s.status.coll = true)) ∧
  (∀ s : State, s.Inv → s.status.err = true → s.irqEn = true → irq s = true) ∧
  (∀ (s : State) (v : Word) (rest : List Input), WritesNext s 0x010 v rest → v[1] = true → v[3] = true →
    ∃ t, step s = .next t ∧ irq t = false)

/-- 20_memory.md R79: repeating a write to STATUS, to WBUF, or to CTRL with bit 1 clear changes nothing more. -/
def Obligations.IdempotentWrites : Prop :=
  ∀ (s t u : State) (off : Nat) (v : Word),
    off = 0x010 ∨ (off = 0x00C ∧ v[1] = false) ∨ (0x040 ≤ off ∧ off < 0x060 ∧ off % 4 = 0) →
    hostWrite ⟨s.build.base + off, 4⟩ v s = .next t → hostWrite ⟨s.build.base + off, 4⟩ v t = .next u → u = t

/-! ### The whole machine -/

/-- What every step keeps: canonical registers, zero in unwritten ones, a legal STATUS, CMD agreeing with the latch,
requests made of field elements, and the reset values while the reset input is asserted. -/
def Obligations.StepKeepsInvariant : Prop := ∀ s t : State, s.Inv → step s = .next t → t.Inv

/-- The invariant holds at reset. -/
def Obligations.ResetMeetsInvariant : Prop := State.reset.Inv

/-- 10_state.md R53, 70_reset_and_hazards.md R293: no step changes a constant of the build, and so no window of one. -/
def Obligations.ConstantsNeverChange : Prop :=
  ∀ s t : State, step s = .next t →
    t.build = s.build ∧ ∀ off, IsConstant off → readWord t off = readWord s off

/-- 10_state.md R31 to R33: only the unit's commit and a reset change a field register or a VALID bit. An input that is
neither the unit's nor a reset changes none; nor does the step of an IDLE unit (60_exceptions.md R267), of one that stays
BUSY waiting for a port (70_reset_and_hazards.md R301), or of one that ends its command with an error; and what a commit
does to VALID is to set it. While the reset input is asserted, ResetHeld says what a step leaves. That `inputs` gives the
order of host and unit, and that with no inputs left the step is the unit's (the last clause), are the model's choices
(assumption log 3 and 9). -/
def Obligations.RegistersChangeOnlyAtCommits : Prop :=
  (∀ (s t : State) (i : Input) (rest : List Input), s.resetHeld = false → s.inputs = i :: rest →
    touchesRegisters s.build.toParams i = false → step s = .next t → t.freg = s.freg ∧ t.valid = s.valid) ∧
  (∀ s t : State, s.status.busy = false → unitStep s = .next t → t = s) ∧
  (∀ s t : State, unitStep s = .next t → t.status.busy = true → t.freg = s.freg ∧ t.valid = s.valid) ∧
  (∀ s t : State, unitStep s = .next t → ∀ r : Reg, s.isValid r = true → t.isValid r = true) ∧
  (∀ s t : State, s.status.err = false → unitStep s = .next t → t.status.err = true →
    t.freg = s.freg ∧ t.valid = s.valid) ∧
  (∀ (s : State) (rest : List Input), UnitNext s rest → step s = unitStep { s with inputs := rest }) ∧
  (∀ s : State, s.resetHeld = false → s.inputs = [] → step s = unitStep s)

/-- 20_memory.md R85, R81: a WBUF write does not disturb the command in progress: before or after the unit's completion,
the state in the end is the same. -/
def Obligations.WbufWriteCommutesWithUnit : Prop :=
  ∀ (s : State) (k : Fin 8) (v : Word) (rest : List Input), s.status.busy = true →
    let write : Input := .hostWrite ⟨s.build.base + (0x040 + 4 * k.val), 4⟩ v
    core.run 2 { s with inputs := .unit :: write :: rest } = core.run 2 { s with inputs := write :: .unit :: rest }

/-- 70_reset_and_hazards.md R299: with ports that answer and a host that makes only supported accesses, the inputs are
used up one a step, and one step later the unit is IDLE. The last step is the model's reading of weak fairness (assumption
log 9). -/
def Obligations.CommandsComplete : Prop :=
  ∀ s : State, s.portLimit = none → (∀ i ∈ s.inputs, i.supported s.build.toParams = true ∧ ∀ l, i ≠ .ports l) →
    ∃ t, core.run (s.inputs.length + 1) s = .next t ∧ t.inputs = [] ∧ t.status.busy = false
end

