-- ==== Sys2Proof/Laws/Encoding.lean ====
section
/-! SUPPORT. The fields of a packed word, bit by bit and field by field. -/

namespace Sys2Proof.Laws

@[simp] theorem regBits_toFin (r : Reg) : (regBits r).toFin = r := rfl

@[simp] theorem regBits_rdField (w : Word) : regBits (rdField w) = w.extractLsb' 20 4 := rfl

@[simp] theorem regBits_rs1Field (w : Word) : regBits (rs1Field w) = w.extractLsb' 16 4 := rfl

@[simp] theorem regBits_rs2Field (w : Word) : regBits (rs2Field w) = w.extractLsb' 12 4 := rfl

/-- Which field each bit of a packed word belongs to (30_encoding.md R101). -/
theorem packFields_getLsbD (op : BitVec 8) (rd rs1 rs2 : Reg) (j : Nat) :
    (packFields op rd rs1 rs2).getLsbD j =
      if j < 12 then false
      else if j < 16 then (regBits rs2).getLsbD (j - 12)
      else if j < 20 then (regBits rs1).getLsbD (j - 16)
      else if j < 24 then (regBits rd).getLsbD (j - 20)
      else op.getLsbD (j - 24) := by
  unfold packFields
  show BitVec.getLsbD (w := 8 + 4 + 4 + 4 + 12) _ j = _
  simp only [BitVec.getLsbD_append, BitVec.getLsbD_zero]
  repeat' split
  all_goals first | rfl | omega

@[simp] theorem opField_packFields (op : BitVec 8) (rd rs1 rs2 : Reg) : opField (packFields op rd rs1 rs2) = op := by
  ext i hi
  rw [opField, BitVec.getElem_extractLsb', packFields_getLsbD]
  simp [show ¬ 24 + i < 12 by omega, show ¬ 24 + i < 16 by omega, show ¬ 24 + i < 20 by omega, hi]

/-- A four-bit slice of a word whose bits are those of a register number is that register number. -/
theorem toFin_of_bits {w : Word} {lo : Nat} {r : Reg} (h : ∀ i, i < 4 → w.getLsbD (lo + i) = (regBits r).getLsbD i) :
    (w.extractLsb' lo 4).toFin = r := by
  have : w.extractLsb' lo 4 = regBits r := by
    ext i hi
    rw [BitVec.getElem_extractLsb', h i hi, BitVec.getLsbD_eq_getElem hi]
  rw [this, regBits_toFin]

@[simp] theorem rdField_packFields (op : BitVec 8) (rd rs1 rs2 : Reg) : rdField (packFields op rd rs1 rs2) = rd :=
  toFin_of_bits fun i hi => by
    rw [packFields_getLsbD]
    simp [show ¬ 20 + i < 12 by omega, show ¬ 20 + i < 16 by omega, show 20 + i < 24 by omega]

@[simp] theorem rs1Field_packFields (op : BitVec 8) (rd rs1 rs2 : Reg) : rs1Field (packFields op rd rs1 rs2) = rs1 :=
  toFin_of_bits fun i hi => by
    rw [packFields_getLsbD]
    simp [show ¬ 16 + i < 12 by omega, show 16 + i < 20 by omega]

@[simp] theorem rs2Field_packFields (op : BitVec 8) (rd rs1 rs2 : Reg) : rs2Field (packFields op rd rs1 rs2) = rs2 :=
  toFin_of_bits fun i hi => by
    rw [packFields_getLsbD]
    simp [show 12 + i < 16 by omega]

@[simp] theorem reserved_packFields (op : BitVec 8) (rd rs1 rs2 : Reg) :
    (packFields op rd rs1 rs2).extractLsb' 0 12 = 0 := by
  ext i hi
  rw [BitVec.getElem_extractLsb', packFields_getLsbD]
  simp [hi]

/-! ### What the decoder answers for a row of the opcode map -/

/-- A word that a row accepts carries that row's opcode: every mask covers bits 31:24 (R106). -/
theorem opField_of_accepts {row : OpRow} {w : Word} (h : row.accepts w = true) : opField w = opField row.fixed := by
  have h' : w &&& row.format.mask = row.fixed := by simpa [OpRow.accepts] using h
  have hmask : opField row.format.mask = BitVec.allOnes 8 := by cases row.format <;> rfl
  have hand : opField (w &&& row.format.mask) = opField w &&& opField row.format.mask := BitVec.extractLsb'_and
  rw [← h', hand, hmask, BitVec.and_allOnes]

/-- Rows with the same opcode are the same row (R106: no two rows overlap). -/
theorem row_unique : ∀ row ∈ opcodeMap, ∀ row' ∈ opcodeMap, opField row.fixed = opField row'.fixed → row = row' := by
  simp only [opcodeMap, List.forall_mem_cons, List.not_mem_nil, false_implies, implies_true, and_true]
  simp [opField]

/-- A word that a row accepts decodes to that row's command (R109). -/
theorem decode_of_accepts {row : OpRow} {w : Word} (hm : row ∈ opcodeMap) (h : row.accepts w = true) :
    decode w = .ok (row.build (rdField w) (rs1Field w) (rs2Field w)) := by
  have : opcodeMap.find? (·.accepts w) = some row := by
    cases hf : opcodeMap.find? (·.accepts w) with
    | none => exact absurd h (by simpa using List.find?_eq_none.1 hf row hm)
    | some row' =>
      have h2 := List.find?_some hf
      rw [row_unique row' (List.mem_of_find?_eq_some hf) row hm ((opField_of_accepts h2).symm.trans (opField_of_accepts h))]
  simp [decode, this]

/-- A word with a row's opcode that the row does not accept is malformed (R107). -/
theorem decode_of_malformed {row : OpRow} {w : Word} (hm : row ∈ opcodeMap) (ho : opField w = opField row.fixed)
    (h : row.accepts w = false) : decode w = .error .fixedBits := by
  have : opcodeMap.find? (·.accepts w) = none := by
    refine List.find?_eq_none.2 fun row' hm' h' => ?_
    rw [row_unique row' hm' row hm ((opField_of_accepts h').symm.trans ho), h] at h'
    cases h'
  have hany : opcodeMap.any (fun row => opField row.fixed == opField w) = true :=
    List.any_eq_true.2 ⟨row, hm, by simp [ho]⟩
  simp [decode, this, hany]

end Sys2Proof.Laws
end

