-- ==== Sys2Proof/Laws/State.lean ====
section
/-! SUPPORT. What each update of the state leaves in each field, so that no proof unfolds a record update. -/

namespace Sys2Proof.Machine

/-! ### writeReg -/

@[simp] theorem writeReg_build (r : Reg) (v : Elem) (s : State) : (writeReg r v s).build = s.build := rfl
@[simp] theorem writeReg_freg (r : Reg) (v : Elem) (s : State) : (writeReg r v s).freg = s.freg.set r v := rfl
@[simp] theorem writeReg_valid (r : Reg) (v : Elem) (s : State) : (writeReg r v s).valid = s.valid.set r true := rfl
@[simp] theorem writeReg_wbuf (r : Reg) (v : Elem) (s : State) : (writeReg r v s).wbuf = s.wbuf := rfl
@[simp] theorem writeReg_cmd (r : Reg) (v : Elem) (s : State) : (writeReg r v s).cmd = s.cmd := rfl
@[simp] theorem writeReg_irqEn (r : Reg) (v : Elem) (s : State) : (writeReg r v s).irqEn = s.irqEn := rfl
@[simp] theorem writeReg_status (r : Reg) (v : Elem) (s : State) : (writeReg r v s).status = s.status := rfl
@[simp] theorem writeReg_cmdl (r : Reg) (v : Elem) (s : State) : (writeReg r v s).cmdl = s.cmdl := rfl
@[simp] theorem writeReg_wsnap (r : Reg) (v : Elem) (s : State) : (writeReg r v s).wsnap = s.wsnap := rfl
@[simp] theorem writeReg_requests (r : Reg) (v : Elem) (s : State) : (writeReg r v s).requests = s.requests := rfl
@[simp] theorem writeReg_resetHeld (r : Reg) (v : Elem) (s : State) : (writeReg r v s).resetHeld = s.resetHeld := rfl
@[simp] theorem writeReg_rdata (r : Reg) (v : Elem) (s : State) : (writeReg r v s).rdata = s.rdata := rfl
@[simp] theorem writeReg_inputs (r : Reg) (v : Elem) (s : State) : (writeReg r v s).inputs = s.inputs := rfl
@[simp] theorem writeReg_portLimit (r : Reg) (v : Elem) (s : State) : (writeReg r v s).portLimit = s.portLimit := rfl

/-! ### writePair -/

@[simp] theorem writePair_build (r : Reg) (x y : Elem) (s : State) : (writePair r x y s).build = s.build := rfl
@[simp] theorem writePair_freg (r : Reg) (x y : Elem) (s : State) :
    (writePair r x y s).freg = (s.freg.set r x).set (pairY r) y := rfl
@[simp] theorem writePair_valid (r : Reg) (x y : Elem) (s : State) :
    (writePair r x y s).valid = (s.valid.set r true).set (pairY r) true := rfl
@[simp] theorem writePair_wbuf (r : Reg) (x y : Elem) (s : State) : (writePair r x y s).wbuf = s.wbuf := rfl
@[simp] theorem writePair_cmd (r : Reg) (x y : Elem) (s : State) : (writePair r x y s).cmd = s.cmd := rfl
@[simp] theorem writePair_irqEn (r : Reg) (x y : Elem) (s : State) : (writePair r x y s).irqEn = s.irqEn := rfl
@[simp] theorem writePair_status (r : Reg) (x y : Elem) (s : State) : (writePair r x y s).status = s.status := rfl
@[simp] theorem writePair_cmdl (r : Reg) (x y : Elem) (s : State) : (writePair r x y s).cmdl = s.cmdl := rfl
@[simp] theorem writePair_wsnap (r : Reg) (x y : Elem) (s : State) : (writePair r x y s).wsnap = s.wsnap := rfl
@[simp] theorem writePair_requests (r : Reg) (x y : Elem) (s : State) :
    (writePair r x y s).requests = s.requests := rfl
@[simp] theorem writePair_resetHeld (r : Reg) (x y : Elem) (s : State) :
    (writePair r x y s).resetHeld = s.resetHeld := rfl
@[simp] theorem writePair_rdata (r : Reg) (x y : Elem) (s : State) : (writePair r x y s).rdata = s.rdata := rfl
@[simp] theorem writePair_inputs (r : Reg) (x y : Elem) (s : State) : (writePair r x y s).inputs = s.inputs := rfl
@[simp] theorem writePair_portLimit (r : Reg) (x y : Elem) (s : State) :
    (writePair r x y s).portLimit = s.portLimit := rfl

/-! ### setEq -/

@[simp] theorem setEq_build (b : Bool) (s : State) : (setEq b s).build = s.build := rfl
@[simp] theorem setEq_freg (b : Bool) (s : State) : (setEq b s).freg = s.freg := rfl
@[simp] theorem setEq_valid (b : Bool) (s : State) : (setEq b s).valid = s.valid := rfl
@[simp] theorem setEq_wbuf (b : Bool) (s : State) : (setEq b s).wbuf = s.wbuf := rfl
@[simp] theorem setEq_cmd (b : Bool) (s : State) : (setEq b s).cmd = s.cmd := rfl
@[simp] theorem setEq_irqEn (b : Bool) (s : State) : (setEq b s).irqEn = s.irqEn := rfl
@[simp] theorem setEq_status (b : Bool) (s : State) : (setEq b s).status = { s.status with eq := b } := rfl
@[simp] theorem setEq_cmdl (b : Bool) (s : State) : (setEq b s).cmdl = s.cmdl := rfl
@[simp] theorem setEq_wsnap (b : Bool) (s : State) : (setEq b s).wsnap = s.wsnap := rfl
@[simp] theorem setEq_requests (b : Bool) (s : State) : (setEq b s).requests = s.requests := rfl
@[simp] theorem setEq_resetHeld (b : Bool) (s : State) : (setEq b s).resetHeld = s.resetHeld := rfl
@[simp] theorem setEq_rdata (b : Bool) (s : State) : (setEq b s).rdata = s.rdata := rfl
@[simp] theorem setEq_inputs (b : Bool) (s : State) : (setEq b s).inputs = s.inputs := rfl
@[simp] theorem setEq_portLimit (b : Bool) (s : State) : (setEq b s).portLimit = s.portLimit := rfl

/-! ### setNr -/

@[simp] theorem setNr_build (b : Bool) (s : State) : (setNr b s).build = s.build := rfl
@[simp] theorem setNr_freg (b : Bool) (s : State) : (setNr b s).freg = s.freg := rfl
@[simp] theorem setNr_valid (b : Bool) (s : State) : (setNr b s).valid = s.valid := rfl
@[simp] theorem setNr_wbuf (b : Bool) (s : State) : (setNr b s).wbuf = s.wbuf := rfl
@[simp] theorem setNr_cmd (b : Bool) (s : State) : (setNr b s).cmd = s.cmd := rfl
@[simp] theorem setNr_irqEn (b : Bool) (s : State) : (setNr b s).irqEn = s.irqEn := rfl
@[simp] theorem setNr_status (b : Bool) (s : State) : (setNr b s).status = { s.status with nr := b } := rfl
@[simp] theorem setNr_cmdl (b : Bool) (s : State) : (setNr b s).cmdl = s.cmdl := rfl
@[simp] theorem setNr_wsnap (b : Bool) (s : State) : (setNr b s).wsnap = s.wsnap := rfl
@[simp] theorem setNr_requests (b : Bool) (s : State) : (setNr b s).requests = s.requests := rfl
@[simp] theorem setNr_resetHeld (b : Bool) (s : State) : (setNr b s).resetHeld = s.resetHeld := rfl
@[simp] theorem setNr_rdata (b : Bool) (s : State) : (setNr b s).rdata = s.rdata := rfl
@[simp] theorem setNr_inputs (b : Bool) (s : State) : (setNr b s).inputs = s.inputs := rfl
@[simp] theorem setNr_portLimit (b : Bool) (s : State) : (setNr b s).portLimit = s.portLimit := rfl

/-! ### setBr -/

@[simp] theorem setBr_build (b : Bool) (s : State) : (setBr b s).build = s.build := rfl
@[simp] theorem setBr_freg (b : Bool) (s : State) : (setBr b s).freg = s.freg := rfl
@[simp] theorem setBr_valid (b : Bool) (s : State) : (setBr b s).valid = s.valid := rfl
@[simp] theorem setBr_wbuf (b : Bool) (s : State) : (setBr b s).wbuf = s.wbuf := rfl
@[simp] theorem setBr_cmd (b : Bool) (s : State) : (setBr b s).cmd = s.cmd := rfl
@[simp] theorem setBr_irqEn (b : Bool) (s : State) : (setBr b s).irqEn = s.irqEn := rfl
@[simp] theorem setBr_status (b : Bool) (s : State) : (setBr b s).status = { s.status with br := b } := rfl
@[simp] theorem setBr_cmdl (b : Bool) (s : State) : (setBr b s).cmdl = s.cmdl := rfl
@[simp] theorem setBr_wsnap (b : Bool) (s : State) : (setBr b s).wsnap = s.wsnap := rfl
@[simp] theorem setBr_requests (b : Bool) (s : State) : (setBr b s).requests = s.requests := rfl
@[simp] theorem setBr_resetHeld (b : Bool) (s : State) : (setBr b s).resetHeld = s.resetHeld := rfl
@[simp] theorem setBr_rdata (b : Bool) (s : State) : (setBr b s).rdata = s.rdata := rfl
@[simp] theorem setBr_inputs (b : Bool) (s : State) : (setBr b s).inputs = s.inputs := rfl
@[simp] theorem setBr_portLimit (b : Bool) (s : State) : (setBr b s).portLimit = s.portLimit := rfl

/-! ### finish -/

@[simp] theorem finish_build (s : State) : (finish s).build = s.build := rfl
@[simp] theorem finish_freg (s : State) : (finish s).freg = s.freg := rfl
@[simp] theorem finish_valid (s : State) : (finish s).valid = s.valid := rfl
@[simp] theorem finish_wbuf (s : State) : (finish s).wbuf = s.wbuf := rfl
@[simp] theorem finish_cmd (s : State) : (finish s).cmd = s.cmd := rfl
@[simp] theorem finish_irqEn (s : State) : (finish s).irqEn = s.irqEn := rfl
@[simp] theorem finish_status (s : State) : (finish s).status = { s.status with done := true, busy := false } := rfl
@[simp] theorem finish_cmdl (s : State) : (finish s).cmdl = s.cmdl := rfl
@[simp] theorem finish_wsnap (s : State) : (finish s).wsnap = s.wsnap := rfl
@[simp] theorem finish_requests (s : State) : (finish s).requests = s.requests := rfl
@[simp] theorem finish_resetHeld (s : State) : (finish s).resetHeld = s.resetHeld := rfl
@[simp] theorem finish_rdata (s : State) : (finish s).rdata = s.rdata := rfl
@[simp] theorem finish_inputs (s : State) : (finish s).inputs = s.inputs := rfl
@[simp] theorem finish_portLimit (s : State) : (finish s).portLimit = s.portLimit := rfl

/-! ### raise -/

@[simp] theorem raise_build (e : ErrCode) (stage : Stage) (s : State) : (raise e stage s).build = s.build := rfl
@[simp] theorem raise_freg (e : ErrCode) (stage : Stage) (s : State) : (raise e stage s).freg = s.freg := rfl
@[simp] theorem raise_valid (e : ErrCode) (stage : Stage) (s : State) : (raise e stage s).valid = s.valid := rfl
@[simp] theorem raise_wbuf (e : ErrCode) (stage : Stage) (s : State) : (raise e stage s).wbuf = s.wbuf := rfl
@[simp] theorem raise_cmd (e : ErrCode) (stage : Stage) (s : State) : (raise e stage s).cmd = s.cmd := rfl
@[simp] theorem raise_irqEn (e : ErrCode) (stage : Stage) (s : State) : (raise e stage s).irqEn = s.irqEn := rfl
@[simp] theorem raise_status (e : ErrCode) (stage : Stage) (s : State) :
    (raise e stage s).status = { s.status with errcode := e, errstage := stage, err := true, done := true, busy := false } := rfl
@[simp] theorem raise_cmdl (e : ErrCode) (stage : Stage) (s : State) : (raise e stage s).cmdl = s.cmdl := rfl
@[simp] theorem raise_wsnap (e : ErrCode) (stage : Stage) (s : State) : (raise e stage s).wsnap = s.wsnap := rfl
@[simp] theorem raise_requests (e : ErrCode) (stage : Stage) (s : State) :
    (raise e stage s).requests = s.requests := rfl
@[simp] theorem raise_resetHeld (e : ErrCode) (stage : Stage) (s : State) :
    (raise e stage s).resetHeld = s.resetHeld := rfl
@[simp] theorem raise_rdata (e : ErrCode) (stage : Stage) (s : State) : (raise e stage s).rdata = s.rdata := rfl
@[simp] theorem raise_inputs (e : ErrCode) (stage : Stage) (s : State) : (raise e stage s).inputs = s.inputs := rfl
@[simp] theorem raise_portLimit (e : ErrCode) (stage : Stage) (s : State) :
    (raise e stage s).portLimit = s.portLimit := rfl

/-! ### collide -/

@[simp] theorem collide_build (s : State) : (collide s).build = s.build := rfl
@[simp] theorem collide_freg (s : State) : (collide s).freg = s.freg := rfl
@[simp] theorem collide_valid (s : State) : (collide s).valid = s.valid := rfl
@[simp] theorem collide_wbuf (s : State) : (collide s).wbuf = s.wbuf := rfl
@[simp] theorem collide_cmd (s : State) : (collide s).cmd = s.cmd := rfl
@[simp] theorem collide_irqEn (s : State) : (collide s).irqEn = s.irqEn := rfl
@[simp] theorem collide_status (s : State) : (collide s).status = { s.status with coll := true } := rfl
@[simp] theorem collide_cmdl (s : State) : (collide s).cmdl = s.cmdl := rfl
@[simp] theorem collide_wsnap (s : State) : (collide s).wsnap = s.wsnap := rfl
@[simp] theorem collide_requests (s : State) : (collide s).requests = s.requests := rfl
@[simp] theorem collide_resetHeld (s : State) : (collide s).resetHeld = s.resetHeld := rfl
@[simp] theorem collide_rdata (s : State) : (collide s).rdata = s.rdata := rfl
@[simp] theorem collide_inputs (s : State) : (collide s).inputs = s.inputs := rfl
@[simp] theorem collide_portLimit (s : State) : (collide s).portLimit = s.portLimit := rfl

/-! ### acknowledge -/

@[simp] theorem acknowledge_build (v : Word) (s : State) : (acknowledge v s).build = s.build := rfl
@[simp] theorem acknowledge_freg (v : Word) (s : State) : (acknowledge v s).freg = s.freg := rfl
@[simp] theorem acknowledge_valid (v : Word) (s : State) : (acknowledge v s).valid = s.valid := rfl
@[simp] theorem acknowledge_wbuf (v : Word) (s : State) : (acknowledge v s).wbuf = s.wbuf := rfl
@[simp] theorem acknowledge_cmd (v : Word) (s : State) : (acknowledge v s).cmd = s.cmd := rfl
@[simp] theorem acknowledge_irqEn (v : Word) (s : State) : (acknowledge v s).irqEn = s.irqEn := rfl
@[simp] theorem acknowledge_status (v : Word) (s : State) :
    (acknowledge v s).status = s.status.writeOneToClear v := rfl
@[simp] theorem acknowledge_cmdl (v : Word) (s : State) : (acknowledge v s).cmdl = s.cmdl := rfl
@[simp] theorem acknowledge_wsnap (v : Word) (s : State) : (acknowledge v s).wsnap = s.wsnap := rfl
@[simp] theorem acknowledge_requests (v : Word) (s : State) : (acknowledge v s).requests = s.requests := rfl
@[simp] theorem acknowledge_resetHeld (v : Word) (s : State) : (acknowledge v s).resetHeld = s.resetHeld := rfl
@[simp] theorem acknowledge_rdata (v : Word) (s : State) : (acknowledge v s).rdata = s.rdata := rfl
@[simp] theorem acknowledge_inputs (v : Word) (s : State) : (acknowledge v s).inputs = s.inputs := rfl
@[simp] theorem acknowledge_portLimit (v : Word) (s : State) : (acknowledge v s).portLimit = s.portLimit := rfl

/-! ### issue -/

@[simp] theorem issue_build (reqs : List Request) (s : State) : (issue reqs s).build = s.build := rfl
@[simp] theorem issue_freg (reqs : List Request) (s : State) : (issue reqs s).freg = s.freg := rfl
@[simp] theorem issue_valid (reqs : List Request) (s : State) : (issue reqs s).valid = s.valid := rfl
@[simp] theorem issue_wbuf (reqs : List Request) (s : State) : (issue reqs s).wbuf = s.wbuf := rfl
@[simp] theorem issue_cmd (reqs : List Request) (s : State) : (issue reqs s).cmd = s.cmd := rfl
@[simp] theorem issue_irqEn (reqs : List Request) (s : State) : (issue reqs s).irqEn = s.irqEn := rfl
@[simp] theorem issue_status (reqs : List Request) (s : State) : (issue reqs s).status = s.status := rfl
@[simp] theorem issue_cmdl (reqs : List Request) (s : State) : (issue reqs s).cmdl = s.cmdl := rfl
@[simp] theorem issue_wsnap (reqs : List Request) (s : State) : (issue reqs s).wsnap = s.wsnap := rfl
@[simp] theorem issue_requests (reqs : List Request) (s : State) : (issue reqs s).requests = reqs := rfl
@[simp] theorem issue_resetHeld (reqs : List Request) (s : State) : (issue reqs s).resetHeld = s.resetHeld := rfl
@[simp] theorem issue_rdata (reqs : List Request) (s : State) : (issue reqs s).rdata = s.rdata := rfl
@[simp] theorem issue_inputs (reqs : List Request) (s : State) : (issue reqs s).inputs = s.inputs := rfl
@[simp] theorem issue_portLimit (reqs : List Request) (s : State) : (issue reqs s).portLimit = s.portLimit := rfl

/-! ### accept -/

@[simp] theorem accept_build (w : Word) (s : State) : (accept w s).build = s.build := rfl
@[simp] theorem accept_freg (w : Word) (s : State) : (accept w s).freg = s.freg := rfl
@[simp] theorem accept_valid (w : Word) (s : State) : (accept w s).valid = s.valid := rfl
@[simp] theorem accept_wbuf (w : Word) (s : State) : (accept w s).wbuf = s.wbuf := rfl
@[simp] theorem accept_cmd (w : Word) (s : State) : (accept w s).cmd = w := rfl
@[simp] theorem accept_irqEn (w : Word) (s : State) : (accept w s).irqEn = s.irqEn := rfl
@[simp] theorem accept_status (w : Word) (s : State) :
    (accept w s).status = { s.status.clearError with done := false, busy := true } := rfl
@[simp] theorem accept_cmdl (w : Word) (s : State) : (accept w s).cmdl = w := rfl
@[simp] theorem accept_wsnap (w : Word) (s : State) : (accept w s).wsnap = joinWords s.wbuf := rfl
@[simp] theorem accept_requests (w : Word) (s : State) : (accept w s).requests = [] := rfl
@[simp] theorem accept_resetHeld (w : Word) (s : State) : (accept w s).resetHeld = s.resetHeld := rfl
@[simp] theorem accept_rdata (w : Word) (s : State) : (accept w s).rdata = s.rdata := rfl
@[simp] theorem accept_inputs (w : Word) (s : State) : (accept w s).inputs = s.inputs := rfl
@[simp] theorem accept_portLimit (w : Word) (s : State) : (accept w s).portLimit = s.portLimit := rfl

/-! ### writeWbuf -/

@[simp] theorem writeWbuf_build (k : Fin 8) (v : Word) (s : State) : (writeWbuf k v s).build = s.build := rfl
@[simp] theorem writeWbuf_freg (k : Fin 8) (v : Word) (s : State) : (writeWbuf k v s).freg = s.freg := rfl
@[simp] theorem writeWbuf_valid (k : Fin 8) (v : Word) (s : State) : (writeWbuf k v s).valid = s.valid := rfl
@[simp] theorem writeWbuf_wbuf (k : Fin 8) (v : Word) (s : State) : (writeWbuf k v s).wbuf = s.wbuf.set k v := rfl
@[simp] theorem writeWbuf_cmd (k : Fin 8) (v : Word) (s : State) : (writeWbuf k v s).cmd = s.cmd := rfl
@[simp] theorem writeWbuf_irqEn (k : Fin 8) (v : Word) (s : State) : (writeWbuf k v s).irqEn = s.irqEn := rfl
@[simp] theorem writeWbuf_status (k : Fin 8) (v : Word) (s : State) : (writeWbuf k v s).status = s.status := rfl
@[simp] theorem writeWbuf_cmdl (k : Fin 8) (v : Word) (s : State) : (writeWbuf k v s).cmdl = s.cmdl := rfl
@[simp] theorem writeWbuf_wsnap (k : Fin 8) (v : Word) (s : State) : (writeWbuf k v s).wsnap = s.wsnap := rfl
@[simp] theorem writeWbuf_requests (k : Fin 8) (v : Word) (s : State) : (writeWbuf k v s).requests = s.requests := rfl
@[simp] theorem writeWbuf_resetHeld (k : Fin 8) (v : Word) (s : State) :
    (writeWbuf k v s).resetHeld = s.resetHeld := rfl
@[simp] theorem writeWbuf_rdata (k : Fin 8) (v : Word) (s : State) : (writeWbuf k v s).rdata = s.rdata := rfl
@[simp] theorem writeWbuf_inputs (k : Fin 8) (v : Word) (s : State) : (writeWbuf k v s).inputs = s.inputs := rfl
@[simp] theorem writeWbuf_portLimit (k : Fin 8) (v : Word) (s : State) :
    (writeWbuf k v s).portLimit = s.portLimit := rfl

/-! ### resetCore -/

@[simp] theorem resetCore_build (s : State) : (resetCore s).build = s.build := rfl
@[simp] theorem resetCore_freg (s : State) : (resetCore s).freg = State.reset.freg := rfl
@[simp] theorem resetCore_valid (s : State) : (resetCore s).valid = State.reset.valid := rfl
@[simp] theorem resetCore_wbuf (s : State) : (resetCore s).wbuf = State.reset.wbuf := rfl
@[simp] theorem resetCore_cmd (s : State) : (resetCore s).cmd = State.reset.cmd := rfl
@[simp] theorem resetCore_irqEn (s : State) : (resetCore s).irqEn = State.reset.irqEn := rfl
@[simp] theorem resetCore_status (s : State) : (resetCore s).status = State.reset.status := rfl
@[simp] theorem resetCore_cmdl (s : State) : (resetCore s).cmdl = State.reset.cmdl := rfl
@[simp] theorem resetCore_wsnap (s : State) : (resetCore s).wsnap = State.reset.wsnap := rfl
@[simp] theorem resetCore_requests (s : State) : (resetCore s).requests = State.reset.requests := rfl
@[simp] theorem resetCore_resetHeld (s : State) : (resetCore s).resetHeld = s.resetHeld := rfl
@[simp] theorem resetCore_rdata (s : State) : (resetCore s).rdata = s.rdata := rfl
@[simp] theorem resetCore_inputs (s : State) : (resetCore s).inputs = s.inputs := rfl
@[simp] theorem resetCore_portLimit (s : State) : (resetCore s).portLimit = s.portLimit := rfl

/-! ### setResetInput -/

@[simp] theorem setResetInput_build (a : Bool) (s : State) : (setResetInput a s).build = s.build := rfl
@[simp] theorem setResetInput_freg (a : Bool) (s : State) : (setResetInput a s).freg = State.reset.freg := rfl
@[simp] theorem setResetInput_valid (a : Bool) (s : State) : (setResetInput a s).valid = State.reset.valid := rfl
@[simp] theorem setResetInput_wbuf (a : Bool) (s : State) : (setResetInput a s).wbuf = State.reset.wbuf := rfl
@[simp] theorem setResetInput_cmd (a : Bool) (s : State) : (setResetInput a s).cmd = State.reset.cmd := rfl
@[simp] theorem setResetInput_irqEn (a : Bool) (s : State) : (setResetInput a s).irqEn = State.reset.irqEn := rfl
@[simp] theorem setResetInput_status (a : Bool) (s : State) : (setResetInput a s).status = State.reset.status := rfl
@[simp] theorem setResetInput_cmdl (a : Bool) (s : State) : (setResetInput a s).cmdl = State.reset.cmdl := rfl
@[simp] theorem setResetInput_wsnap (a : Bool) (s : State) : (setResetInput a s).wsnap = State.reset.wsnap := rfl
@[simp] theorem setResetInput_requests (a : Bool) (s : State) :
    (setResetInput a s).requests = State.reset.requests := rfl
@[simp] theorem setResetInput_resetHeld (a : Bool) (s : State) : (setResetInput a s).resetHeld = a := rfl
@[simp] theorem setResetInput_rdata (a : Bool) (s : State) : (setResetInput a s).rdata = s.rdata := rfl
@[simp] theorem setResetInput_inputs (a : Bool) (s : State) : (setResetInput a s).inputs = s.inputs := rfl
@[simp] theorem setResetInput_portLimit (a : Bool) (s : State) : (setResetInput a s).portLimit = s.portLimit := rfl

/-! ### underReset -/

theorem underReset_released {s : State} (h : s.resetHeld = false) : underReset s = s := by simp [underReset, h]
theorem underReset_held {s : State} (h : s.resetHeld = true) : underReset s = resetCore s := by simp [underReset, h]
@[simp] theorem underReset_build (s : State) : (underReset s).build = s.build := by unfold underReset; split <;> rfl
@[simp] theorem underReset_resetHeld (s : State) : (underReset s).resetHeld = s.resetHeld := by unfold underReset; split <;> rfl
@[simp] theorem underReset_rdata (s : State) : (underReset s).rdata = s.rdata := by unfold underReset; split <;> rfl
@[simp] theorem underReset_inputs (s : State) : (underReset s).inputs = s.inputs := by unfold underReset; split <;> rfl
@[simp] theorem underReset_portLimit (s : State) : (underReset s).portLimit = s.portLimit := by unfold underReset; split <;> rfl

end Sys2Proof.Machine
end

