-- ==== Sys2Proof/Laws/Ops.lean ====
section
/-! SUPPORT. One lemma per shared operation, saying everything it can do; later proofs cite these instead of unfolding
the operations. -/

namespace Sys2Proof.Machine

open Sys2Proof.Laws

/-! ### Builds -/

theorem Build.p_pos (b : Build) : 0 < b.p := b.valid.prime.pos

theorem Build.p_lt (b : Build) : b.p < 2 ^ 256 := b.valid.p_lt

/-! ### Register contents -/

theorem toElem_toNat {v : Nat} (h : v < 2 ^ 256) : (toElem v).toNat = v := by
  rw [toElem, BitVec.toNat_ofNat, Nat.mod_eq_of_lt h]

/-- A canonical value survives the trip through a register. -/
theorem toElem_toNat_of_lt {b : Build} {v : Nat} (h : v < b.p) : (toElem v).toNat = v :=
  toElem_toNat (h.trans b.valid.p_lt)

@[simp] theorem toElem_elem (s : State) (r : Reg) : toElem (s.elem r) = s.freg[r] := by
  simp [toElem, State.elem]

theorem elem_writeReg (r r' : Reg) (v : Elem) (s : State) :
    (writeReg r v s).elem r' = if r = r' then v.toNat else s.elem r' := by
  simp only [State.elem, writeReg, Fin.getElem_fin, Vector.getElem_set, Fin.ext_iff]
  split <;> rfl

theorem isValid_writeReg (r r' : Reg) (v : Elem) (s : State) :
    (writeReg r v s).isValid r' = if r = r' then true else s.isValid r' := by
  simp only [State.isValid, writeReg, Fin.getElem_fin, Vector.getElem_set, Fin.ext_iff]

@[simp] theorem elem_writeReg_self (r : Reg) (v : Elem) (s : State) : (writeReg r v s).elem r = v.toNat := by
  simp [elem_writeReg]

@[simp] theorem isValid_writeReg_self (r : Reg) (v : Elem) (s : State) : (writeReg r v s).isValid r = true := by
  simp [isValid_writeReg]

/-- `F[r]` and `VALID[r]` depend on the register file alone. -/
theorem elem_congr {s t : State} (h : t.freg = s.freg) (r : Reg) : t.elem r = s.elem r := by simp [State.elem, h]

theorem isValid_congr {s t : State} (h : t.valid = s.valid) (r : Reg) : t.isValid r = s.isValid r := by
  simp [State.isValid, h]

/-- The two registers of a pair are different. -/
theorem pairY_ne (r : Reg) : pairY r ≠ r := by revert r; decide

theorem pairY_val {r : Reg} (h : r.val % 2 = 0) : (pairY r).val = r.val + 1 := by revert r; decide

/-! ### Operands -/

theorem withSource_of_valid {r : Reg} {s : State} (h : s.isValid r = true) (k : Nat → Result) :
    withSource r s k = k (s.elem r) := by simp [withSource, h]

theorem withSource_of_invalid {r : Reg} {s : State} (h : s.isValid r = false) (k : Nat → Result) :
    withSource r s k = .next (raise .uninitialisedOperand 0 s) := by simp [withSource, h]

/-- A scalar source is read, or the command ends with UNINITIALISED_OPERAND. -/
theorem withSource_cases (r : Reg) (s : State) (k : Nat → Result) :
    (s.isValid r = true ∧ withSource r s k = k (s.elem r)) ∨
      (s.isValid r = false ∧ withSource r s k = .next (raise .uninitialisedOperand 0 s)) := by
  cases h : s.isValid r
  · exact .inr ⟨rfl, withSource_of_invalid h k⟩
  · exact .inl ⟨rfl, withSource_of_valid h k⟩

theorem withSources_of_valid {r1 r2 : Reg} {s : State} (h1 : s.isValid r1 = true) (h2 : s.isValid r2 = true)
    (k : Nat → Nat → Result) : withSources r1 r2 s k = k (s.elem r1) (s.elem r2) := by
  rw [withSources, withSource_of_valid h1, withSource_of_valid h2]

/-- Both sources are read, or the command ends with UNINITIALISED_OPERAND. -/
theorem withSources_cases (r1 r2 : Reg) (s : State) (k : Nat → Nat → Result) :
    (s.isValid r1 = true ∧ s.isValid r2 = true ∧ withSources r1 r2 s k = k (s.elem r1) (s.elem r2)) ∨
      ((s.isValid r1 = false ∨ s.isValid r2 = false) ∧
        withSources r1 r2 s k = .next (raise .uninitialisedOperand 0 s)) := by
  obtain ⟨h1, e1⟩ | ⟨h1, e1⟩ := withSource_cases r1 s fun a => withSource r2 s fun b => k a b
  · obtain ⟨h2, e2⟩ | ⟨h2, e2⟩ := withSource_cases r2 s fun b => k (s.elem r1) b
    · exact .inl ⟨h1, h2, e1.trans e2⟩
    · exact .inr ⟨.inr h2, e1.trans e2⟩
  · exact .inr ⟨.inl h1, e1⟩

theorem withPairField_even {r : Reg} (h : r.val % 2 = 0) (s : State) (k : Result) : withPairField r s k = k := by
  simp [withPairField, h]

theorem withPairField_odd {r : Reg} (h : r.val % 2 ≠ 0) (s : State) (k : Result) :
    withPairField r s k = .next (raise .illegalCmd 0 s) := by simp [withPairField, h]

/-- A pair field is even, or the command ends with ILLEGAL_CMD. -/
theorem withPairField_cases (r : Reg) (s : State) (k : Result) :
    (r.val % 2 = 0 ∧ withPairField r s k = k) ∨
      (r.val % 2 ≠ 0 ∧ withPairField r s k = .next (raise .illegalCmd 0 s)) := by
  by_cases h : r.val % 2 = 0
  · exact .inl ⟨h, withPairField_even h s k⟩
  · exact .inr ⟨h, withPairField_odd h s k⟩

/-- WellFormed's test of a pair field and the meanings' test are the same. -/
theorem namesPair_iff (r : Reg) : r.namesPair = true ↔ r.val % 2 = 0 := by simp [Reg.namesPair]

/-! ### STATUS writes -/

/-- What a host write to STATUS leaves in each field (10_state.md R43). -/
theorem writeOneToClear_eq (v : Word) (st : Status) :
    st.writeOneToClear v =
      { st with
        done := st.done && !v[1]
        err := st.err && !v[1] && !v[2]
        coll := st.coll && !v[3]
        errcode := if v[1] || v[2] then .none else st.errcode
        errstage := if v[1] || v[2] then 0 else st.errstage } := by
  cases h1 : v[1] <;> cases h2 : v[2] <;> cases h3 : v[3] <;>
    simp [Status.writeOneToClear, Status.clearError, h1, h2, h3]

/-! ### Accesses -/

/-- An access is supported exactly when it is an aligned 32-bit access inside the window. -/
theorem accessOffset_ok_iff (c : Params) (a : Access) (off : Nat) :
    accessOffset c a = .ok off ↔ a = ⟨c.base + off, 4⟩ ∧ off < 4096 ∧ off % 4 = 0 := by
  obtain ⟨addr, bytes⟩ := a
  simp only [accessOffset, Access.mk.injEq]
  split
  · simp; omega
  · split
    · simp; omega
    · simp; omega

/-- What a host read does when it does anything. -/
theorem hostRead_next {a : Access} {s t : State} (h : hostRead a s = .next t) :
    ∃ off, accessOffset s.build.toParams a = .ok off ∧ t = { s with rdata := readWord s off } := by
  unfold hostRead at h
  split at h
  · next off ho => exact ⟨off, ho, by simpa using h.symm⟩
  · simp at h

/-- What a host write does when it does anything. -/
theorem hostWrite_next {a : Access} {v : Word} {s t : State} (h : hostWrite a v s = .next t) :
    ∃ off, accessOffset s.build.toParams a = .ok off ∧ t = if s.resetHeld then s else writeWord s off v := by
  unfold hostWrite at h
  split at h
  · next off ho => exact ⟨off, ho, by simpa using h.symm⟩
  · simp at h

/-- A host write is one of the four writes that do something, or it does nothing. -/
theorem writeWord_cases (s : State) (off : Nat) (v : Word) :
    writeWord s off v = writeCmd v s ∨ writeWord s off v = acknowledge v s ∨ writeWord s off v = writeCtrl v s ∨
      (∃ k, writeWord s off v = writeWbuf k v s) ∨ writeWord s off v = s := by
  unfold writeWord
  cases windowReg off with
  | cmd => exact .inl rfl
  | status => exact .inr (.inl rfl)
  | ctrl => exact .inr (.inr (.inl rfl))
  | wbuf k => exact .inr (.inr (.inr (.inl ⟨k, rfl⟩)))
  | id | version | paramInfo | validr | pWord _ | jWord _ | zWord _ | freg _ _ | reserved =>
    exact .inr (.inr (.inr (.inr rfl)))

/-! ### The unit and the step -/

theorem unitStep_idle {s : State} (h : s.status.busy = false) : unitStep s = .next s := by simp [unitStep, h]

theorem unitStep_command {s : State} {i : Instr} (hb : s.status.busy = true) (hd : decode s.cmdl = .ok i) :
    unitStep s = exec i s := by simp [unitStep, hb, hd]

theorem unitStep_illegal {s : State} {e : Illegal} (hb : s.status.busy = true) (hd : decode s.cmdl = .error e) :
    unitStep s = .next (raise .illegalCmd 0 s) := by simp [unitStep, hb, hd]

/-- The unit is idle, or executes the command it holds, or ends an illegal word. -/
theorem unitStep_cases (s : State) :
    (s.status.busy = false ∧ unitStep s = .next s) ∨
      (s.status.busy = true ∧ ∃ i, decode s.cmdl = .ok i ∧ unitStep s = exec i s) ∨
      (s.status.busy = true ∧ (∃ e, decode s.cmdl = .error e) ∧ unitStep s = .next (raise .illegalCmd 0 s)) := by
  cases hb : s.status.busy
  · exact .inl ⟨rfl, unitStep_idle hb⟩
  · refine .inr ?_
    cases hd : decode s.cmdl with
    | ok i => exact .inl ⟨rfl, i, rfl, unitStep_command hb hd⟩
    | error e => exact .inr ⟨rfl, ⟨e, rfl⟩, unitStep_illegal hb hd⟩

theorem step_nil {s : State} (h : s.inputs = []) : step s = unitStep (underReset s) := by simp [step, h]

theorem step_cons {s : State} {i : Input} {rest : List Input} (h : s.inputs = i :: rest) :
    step s = takeInput { underReset s with inputs := rest } i := by simp [step, h]

/-- With the reset input released, a step is the unit's or the next input's on the state as it stands. -/
theorem step_nil_released {s : State} (hr : s.resetHeld = false) (h : s.inputs = []) : step s = unitStep s := by
  rw [step_nil h, underReset_released hr]

theorem step_cons_released {s : State} {i : Input} {rest : List Input} (hr : s.resetHeld = false)
    (h : s.inputs = i :: rest) : step s = takeInput { s with inputs := rest } i := by
  rw [step_cons h, underReset_released hr]

/-- While the reset input is asserted, every next state is the reset core, with the input gone; only the model's own
fields and the level of the input can differ. -/
theorem step_held {s t : State} (hr : s.resetHeld = true) (h : step s = .next t) :
    ∃ rdata portLimit level, t = { resetCore s with
      inputs := s.inputs.tail, rdata := rdata, portLimit := portLimit, resetHeld := level } ∧
      (level = false → ∃ rest, s.inputs = .resetInput false :: rest) := by
  cases hi : s.inputs with
  | nil =>
    rw [step_nil hi, underReset_held hr, unitStep_idle rfl] at h
    cases h
    exact ⟨s.rdata, s.portLimit, true, by simp [resetCore, hi, hr], by simp⟩
  | cons i rest =>
    rw [step_cons hi, underReset_held hr] at h
    cases i with
    | hostRead a =>
      obtain ⟨off, -, rfl⟩ := hostRead_next h
      exact ⟨_, s.portLimit, true, by simp [resetCore, hr]; rfl, by simp⟩
    | hostWrite a v =>
      obtain ⟨off, -, rfl⟩ := hostWrite_next h
      exact ⟨s.rdata, s.portLimit, true, by simp [resetCore, hr], by simp⟩
    | unit =>
      simp only [takeInput, unitStep_idle (s := { resetCore s with inputs := rest }) rfl] at h
      cases h
      exact ⟨s.rdata, s.portLimit, true, by simp [resetCore, hr], by simp⟩
    | resetInput a =>
      cases h
      exact ⟨s.rdata, s.portLimit, a, by simp [setResetInput, resetCore], by rintro rfl; exact ⟨rest, rfl⟩⟩
    | ports l =>
      cases h
      exact ⟨s.rdata, l, true, by simp [resetCore, hr], by simp⟩

/-! ### Pipeline runs -/

/-- A run that goes on after another: either the first ended early and nothing more is issued, or it had a value and
the second run follows. -/
theorem andThen_cases {α β : Type} (r : Run α) (next : α → Run β) :
    (∃ a, r.ending = .value a ∧ r.andThen next = ⟨r.requests ++ (next a).requests, (next a).ending⟩) ∨
      (∃ e stage, r.ending = .error e stage ∧ r.andThen next = ⟨r.requests, .error e stage⟩) ∨
      (r.ending = .waiting ∧ r.andThen next = ⟨r.requests, .waiting⟩) := by
  unfold Run.andThen
  cases r.ending with
  | value a => exact .inl ⟨a, rfl, rfl⟩
  | error e stage => exact .inr (.inl ⟨e, stage, rfl, rfl⟩)
  | waiting => exact .inr (.inr ⟨rfl, rfl⟩)

/-- A run has a value exactly when both of its parts have one. -/
theorem andThen_value {α β : Type} {r : Run α} {next : α → Run β} {b : β} :
    (r.andThen next).ending = .value b ↔ ∃ a, r.ending = .value a ∧ (next a).ending = .value b := by
  unfold Run.andThen
  cases r.ending <;> simp

theorem answers_none (ports : Ports) (n : Nat) : Outside.answers ⟨ports, none⟩ n = true := rfl

/-- Ports that answer everything are never waited for. -/
theorem answerLimit_none {s : State} (h : s.portLimit = none) : answerLimit s = none := by simp [answerLimit, h]

/-! ### Ranges of the results -/

theorem normaliseRoot_lt {p r : Nat} (hp : 0 < p) (hr : r < p) : normaliseRoot p r < p := by
  unfold normaliseRoot; split
  · exact fneg_lt hp r
  · exact hr

theorem tonelliLoop_lt {p : Nat} (hp : 0 < p) : ∀ fuel m c t r, r < p → tonelliLoop p fuel m c t r < p
  | 0, _, _, _, _, hr => hr
  | fuel + 1, m, c, t, r, hr => by
    unfold tonelliLoop; split
    · exact hr
    · exact tonelliLoop_lt hp fuel _ _ _ _ (fmul_lt hp _ _)

/-- A root is a canonical field element. -/
theorem sqrtTS_lt {c : Params} (hp : 0 < c.p) {n y : Nat} (h : sqrtTS c n = some y) : y < c.p := by
  unfold sqrtTS at h
  split at h
  · obtain rfl : 0 = y := by simpa using h
    exact hp
  · split at h
    · simp at h
    · obtain rfl := by simpa using h
      exact normaliseRoot_lt hp (tonelliLoop_lt hp _ _ _ _ _ (fpow_lt hp _ _))

/-- The map's coordinates are canonical field elements. -/
theorem ell2Map_lt {c : Params} (hp : 0 < c.p) {u : Nat} {r : MapResult} (h : ell2Map c u = some r) :
    r.point.x < c.p ∧ r.point.y < c.p := by
  unfold ell2Map at h
  split at h
  · next y1 hy =>
    obtain rfl := by simpa using h
    refine ⟨fmul_lt hp _ _, ?_⟩
    unfold forceOdd; split
    · exact sqrtTS_lt hp hy
    · exact fneg_lt hp _
  · split at h
    · next y2 hy =>
      obtain rfl := by simpa using h
      refine ⟨fsub_lt hp _ _, ?_⟩
      unfold forceEven; split
      · exact fneg_lt hp _
      · exact sqrtTS_lt hp hy
    · simp at h

theorem montToEd_lt {p : Nat} (hp : 0 < p) {P E : Point} (h : montToEd p P = some E) : E.x < p ∧ E.y < p := by
  unfold montToEd at h
  split at h
  · simp at h
  · obtain rfl := by simpa using h
    exact ⟨fmul_lt hp _ _, fmul_lt hp _ _⟩

/-- A hash answer that is used is canonical. -/
theorem hashStage_lt {p : Nat} {o : Outside} {n : Nat} {stage : Stage} {a b c h : Nat}
    (hv : (hashStage p o n stage a b c).ending = .value h) : h < p := by
  simp only [hashStage] at hv
  split at hv
  · split at hv
    · next hlt => obtain rfl := by simpa using hv
                  exact hlt
    · simp at hv
  · simp at hv

/-- A group-law answer that is used is canonical. -/
theorem addStage_lt {p : Nat} {o : Outside} {n : Nat} {stage : Stage} {P Q R : Point}
    (hv : (addStage p o n stage P Q).ending = .value R) : R.x < p ∧ R.y < p := by
  simp only [addStage] at hv
  split at hv
  · split at hv
    · next hlt => obtain rfl := by simpa using hv
                  exact hlt
    · simp at hv
  · simp at hv

end Sys2Proof.Machine
end

