-- ==== Sys2Proof/Laws/Exec.lean ====
section
/-! SUPPORT. Everything executing one command can do, said once for all fourteen: it always answers a next state, and
that state is an error's, a commit's, or that of a unit still waiting for a port. -/

namespace Sys2Proof.Machine

open Sys2Proof.Laws

/-! ### What a command may change before its last line -/

/-- The command uses the external ports. -/
def UsesPorts (i : Instr) : Prop := ∃ d a b, i = .h2f d a b ∨ i = .h2c d a b

/-- `u` is `s` after some of the writes the command `i` may make. -/
structure Writes (i : Instr) (s u : State) : Prop where
  build : u.build = s.build
  wbuf : u.wbuf = s.wbuf
  cmd : u.cmd = s.cmd
  cmdl : u.cmdl = s.cmdl
  wsnap : u.wsnap = s.wsnap
  irqEn : u.irqEn = s.irqEn
  resetHeld : u.resetHeld = s.resetHeld
  rdata : u.rdata = s.rdata
  inputs : u.inputs = s.inputs
  portLimit : u.portLimit = s.portLimit
  status : u.status = { s.status with eq := u.status.eq, nr := u.status.nr, br := u.status.br }
  eq : u.status.eq ≠ s.status.eq → ∃ a b, i = .feq a b
  nr : u.status.nr ≠ s.status.nr → ∃ d a, i = .fsqrt d a
  br : u.status.br ≠ s.status.br → ∃ d a, i = .ell2 d a
  requests : u.requests ≠ s.requests → UsesPorts i
  regs : ∀ r, r ∉ destinations i → u.elem r = s.elem r ∧ u.isValid r = s.isValid r
  valid_mono : ∀ r, s.isValid r = true → u.isValid r = true
  canonical : s.Canonical → u.Canonical
  invalid_zero : s.InvalidIsZero → u.InvalidIsZero
  requests_canonical : s.Canonical → (∀ q ∈ s.requests, q.Canonical s.build.p) → ∀ q ∈ u.requests, q.Canonical s.build.p

theorem Writes.refl (i : Instr) (s : State) : Writes i s s :=
  ⟨rfl, rfl, rfl, rfl, rfl, rfl, rfl, rfl, rfl, rfl, rfl, fun h => absurd rfl h, fun h => absurd rfl h,
    fun h => absurd rfl h, fun h => absurd rfl h, fun _ _ => ⟨rfl, rfl⟩, fun _ h => h, id, id, fun _ h => h⟩

theorem Writes.setEq {a b : Reg} {s u : State} (h : Writes (.feq a b) s u) (v : Bool) :
    Writes (.feq a b) s (setEq v u) :=
  { h with
    status := by rw [setEq_status, h.status]
    eq := fun _ => ⟨a, b, rfl⟩ }

theorem Writes.setNr {d a : Reg} {s u : State} (h : Writes (.fsqrt d a) s u) (v : Bool) :
    Writes (.fsqrt d a) s (setNr v u) :=
  { h with
    status := by rw [setNr_status, h.status]
    nr := fun _ => ⟨d, a, rfl⟩ }

theorem Writes.setBr {d a : Reg} {s u : State} (h : Writes (.ell2 d a) s u) (v : Bool) :
    Writes (.ell2 d a) s (setBr v u) :=
  { h with
    status := by rw [setBr_status, h.status]
    br := fun _ => ⟨d, a, rfl⟩ }

theorem Writes.writeReg {i : Instr} {s u : State} (h : Writes i s u) {r : Reg} (hr : r ∈ destinations i) {v : Nat}
    (hv : s.Canonical → v < s.build.p) : Writes i s (writeReg r (toElem v) u) :=
  { h with
    regs := fun r' hr' => by
      have hne : r ≠ r' := fun e => hr' (e ▸ hr)
      simpa [elem_writeReg, isValid_writeReg, hne] using h.regs r' hr'
    valid_mono := fun r' h' => by rw [isValid_writeReg, h.valid_mono r' h', ite_self]
    canonical := fun hc r' => by
      rw [elem_writeReg]
      split
      · rw [writeReg_build, h.build, toElem_toNat_of_lt (hv hc)]
        exact hv hc
      · exact h.canonical hc r'
    invalid_zero := fun hz r' h' => by
      rw [isValid_writeReg] at h'
      rw [elem_writeReg]
      split
      · next he => rw [if_pos he] at h'; cases h'
      · next he => rw [if_neg he] at h'; exact h.invalid_zero hz r' h' }

theorem Writes.writePair {i : Instr} {s u : State} (h : Writes i s u) {r : Reg} (hx : r ∈ destinations i)
    (hy : pairY r ∈ destinations i) {x y : Nat} (hv : s.Canonical → x < s.build.p ∧ y < s.build.p) :
    Writes i s (writePair r (toElem x) (toElem y) u) :=
  (h.writeReg hx fun hc => (hv hc).1).writeReg hy fun hc => (hv hc).2

theorem Writes.issue {i : Instr} {s : State} (hi : UsesPorts i) {reqs : List Request}
    (hq : s.Canonical → ∀ q ∈ reqs, q.Canonical s.build.p) : Writes i s (issue reqs s) :=
  { Writes.refl i s with
    requests := fun _ => hi
    requests_canonical := fun hc _ => hq hc }

/-- A stage at which a command raises an error is one at which that error is reported (60_exceptions.md R251). -/
theorem mayRaise_stages {i : Instr} {e : ErrCode} {stage : Stage} (h : stage ∈ mayRaise i e) : stage ∈ e.stages := by
  cases i <;> cases e <;> simp only [mayRaise, ErrCode.stages, List.mem_cons, List.not_mem_nil, or_false] at h ⊢ <;> tauto

/-! ### How a command can end -/

/-- The state a command leaves. -/
inductive Effect (i : Instr) (s t : State) : Prop where
  /-- it ended with an error: nothing but the record of its requests had changed -/
  | raised (e : ErrCode) (stage : Stage) (reqs : List Request) (he : e ≠ .none) (hs : stage ∈ mayRaise i e)
      (hw : Writes i s (issue reqs s)) (ht : t = raise e stage (issue reqs s))
  /-- a port does not answer its last request -/
  | waits (reqs : List Request) (hl : s.portLimit ≠ none) (hw : Writes i s (issue reqs s)) (ht : t = issue reqs s)
  /-- it committed -/
  | commits (u : State) (hw : Writes i s u) (ht : t = finish u)

/-- The command answers a next state, by one of its three endings. -/
def Answers (i : Instr) (s : State) (r : Result) : Prop := ∃ t, r = .next t ∧ Effect i s t

theorem answers_raise {i : Instr} {s : State} {e : ErrCode} {stage : Stage} (he : e ≠ .none)
    (hs : stage ∈ mayRaise i e) : Answers i s (.next (raise e stage s)) :=
  ⟨_, rfl, .raised e stage s.requests he hs (Writes.refl i s) rfl⟩

theorem answers_source {i : Instr} {r : Reg} {s : State} {k : Nat → Result}
    (hi : (0 : Stage) ∈ mayRaise i .uninitialisedOperand) (hk : Answers i s (k (s.elem r))) :
    Answers i s (withSource r s k) := by
  unfold withSource
  split
  · exact hk
  · exact answers_raise (by decide) hi

theorem answers_sources {i : Instr} {a b : Reg} {s : State} {k : Nat → Nat → Result}
    (hi : (0 : Stage) ∈ mayRaise i .uninitialisedOperand) (hk : Answers i s (k (s.elem a) (s.elem b))) :
    Answers i s (withSources a b s k) :=
  answers_source hi (answers_source hi hk)

theorem answers_pairField {i : Instr} {r : Reg} {s : State} {k : Result}
    (hi : (0 : Stage) ∈ mayRaise i .illegalCmd) (hk : Answers i s k) : Answers i s (withPairField r s k) := by
  unfold withPairField
  split
  · exact hk
  · exact answers_raise (by decide) hi

theorem answers_commitScalar {i : Instr} {s u : State} (hw : Writes i s u) {d : Reg} (hd : d ∈ destinations i) {v : Nat}
    (hv : s.Canonical → v < s.build.p) : Answers i s (commitScalar d v u) :=
  ⟨_, rfl, .commits _ (hw.writeReg hd hv) rfl⟩

theorem answers_commitPair {i : Instr} {s u : State} (hw : Writes i s u) {d : Reg} (hx : d ∈ destinations i)
    (hy : pairY d ∈ destinations i) {P : Point} (hv : s.Canonical → P.x < s.build.p ∧ P.y < s.build.p) :
    Answers i s (commitPair d P u) :=
  ⟨_, rfl, .commits _ (hw.writePair hx hy hv) rfl⟩

theorem answers_commitNothing {i : Instr} {s u : State} (hw : Writes i s u) : Answers i s (commitNothing u) :=
  ⟨_, rfl, .commits _ hw rfl⟩

/-! ### Runs on the ports -/

/-- What a run of the command `i` may do: if its operands are field elements (`C`), so are its requests'; its value is good, its errors are in the
table, and it waits only for ports that do not answer everything. -/
structure RunOk {α : Type} (C : Prop) (i : Instr) (p : Nat) (limit : Option Nat) (good : α → Prop) (r : Run α) : Prop where
  requests : C → ∀ q ∈ r.requests, q.Canonical p
  value : ∀ a, r.ending = .value a → good a
  error : ∀ e stage, r.ending = .error e stage → e ≠ .none ∧ stage ∈ mayRaise i e
  waiting : r.ending = .waiting → limit ≠ none

theorem RunOk.andThen {α β : Type} {C : Prop} {i : Instr} {p : Nat} {limit : Option Nat} {good : α → Prop} {good' : β → Prop}
    {r : Run α} {next : α → Run β} (h : RunOk C i p limit good r) (hn : ∀ a, good a → RunOk C i p limit good' (next a)) :
    RunOk C i p limit good' (r.andThen next) := by
  rcases andThen_cases r next with ⟨a, ha, he⟩ | ⟨e, stage, ha, he⟩ | ⟨ha, he⟩ <;> rw [he]
  · have hb := hn a (h.value a ha)
    exact ⟨fun hC q hq => (List.mem_append.1 hq).elim (h.requests hC q) (hb.requests hC q), hb.value, hb.error, hb.waiting⟩
  · exact ⟨h.requests, by simp, by rintro _ _ ⟨⟩; exact h.error _ _ ha, by simp⟩
  · exact ⟨h.requests, by simp, by simp, fun _ => h.waiting ha⟩

theorem RunOk.done {α : Type} {C : Prop} {i : Instr} {p : Nat} {limit : Option Nat} {good : α → Prop} {a : α} (ha : good a) :
    RunOk C i p limit good (Run.done a) :=
  ⟨by simp [Run.done], by rintro _ ⟨⟩; exact ha, by simp [Run.done], by simp [Run.done]⟩

theorem RunOk.internal {α : Type} {C : Prop} {i : Instr} {p : Nat} {limit : Option Nat} {good : α → Prop} {e : ErrCode}
    {stage : Stage} {o : Option α} (he : e ≠ .none) (hs : stage ∈ mayRaise i e) (hg : ∀ a, o = some a → good a) :
    RunOk C i p limit good (internalStage e stage o) := by
  cases o with
  | some a => exact ⟨by simp [internalStage], by rintro _ ⟨⟩; exact hg a rfl, by simp [internalStage], by simp [internalStage]⟩
  | none => exact ⟨by simp [internalStage], by simp [internalStage], by rintro _ _ ⟨⟩; exact ⟨he, hs⟩, by simp [internalStage]⟩

theorem not_answers_limit {o : Outside} {n : Nat} (h : o.answers n ≠ true) : o.limit ≠ none := by
  intro hn
  simp [Outside.answers, hn] at h

theorem RunOk.hash {C : Prop} {i : Instr} {p : Nat} {o : Outside} {n : Nat} {stage : Stage} {a b c : Nat}
    (hs : stage ∈ mayRaise i .externalInvalid) (hq : C → (Request.hash a b c).Canonical p) :
    RunOk C i p o.limit (· < p) (hashStage p o n stage a b c) := by
  refine ⟨by simpa [hashStage] using hq, fun v hv => hashStage_lt hv, fun e st he => ?_, fun hw => ?_⟩
  · simp only [hashStage] at he
    split at he
    · split at he
      · cases he
      · cases he; exact ⟨by decide, hs⟩
    · cases he
  · simp only [hashStage] at hw
    split at hw
    · split at hw <;> cases hw
    · next h => exact not_answers_limit h

theorem RunOk.add {C : Prop} {i : Instr} {p : Nat} {o : Outside} {n : Nat} {stage : Stage} {P Q : Point}
    (hs : stage ∈ mayRaise i .externalInvalid) (hq : C → (Request.edadd P Q).Canonical p) :
    RunOk C i p o.limit (fun R => R.x < p ∧ R.y < p) (addStage p o n stage P Q) := by
  refine ⟨by simpa [addStage] using hq, fun v hv => addStage_lt hv, fun e st he => ?_, fun hw => ?_⟩
  · simp only [addStage] at he
    split at he
    · split at he
      · cases he
      · cases he; exact ⟨by decide, hs⟩
    · cases he
  · simp only [addStage] at hw
    split at hw
    · split at hw <;> cases hw
    · next h => exact not_answers_limit h

/-- HashToField on canonical operands. -/
theorem hashToField_ok {C : Prop} {i : Instr} {p : Nat} {o : Outside} {m d : Nat} (h1 : 1 ∈ mayRaise i .externalInvalid)
    (h2 : 2 ∈ mayRaise i .externalInvalid) (hp : 1 < p) (hm : C → m < p) (hd : C → d < p) :
    RunOk C i p o.limit (fun f => f.1 < p ∧ f.2 < p) (hashToField p o m d) :=
  (RunOk.hash h1 fun h => ⟨hm h, by omega, hd h⟩).andThen fun _ hf1 =>
  (RunOk.hash h2 fun h => ⟨hf1, hp, hd h⟩).andThen fun _ hf2 =>
  RunOk.done ⟨hf1, hf2⟩

/-- HashToCurve on canonical operands. -/
theorem hashToCurve_ok {C : Prop} {c : Params} {o : Outside} {m d : Nat} (prd a b : Reg) (hp : 1 < c.p) (hm : C → m < c.p)
    (hd : C → d < c.p) :
    RunOk C (.h2c prd a b) c.p o.limit (fun R => R.x < c.p ∧ R.y < c.p) (hashToCurve c o m d) :=
  have hp' : 0 < c.p := by omega
  (hashToField_ok (by simp [mayRaise]) (by simp [mayRaise]) hp hm hd).andThen fun f _ =>
  (RunOk.internal (good := fun _ => True) (by decide) (by simp [mayRaise]) fun _ _ => trivial).andThen fun M1 _ =>
  (RunOk.internal (good := fun _ => True) (by decide) (by simp [mayRaise]) fun _ _ => trivial).andThen fun M2 _ =>
  (RunOk.internal (by decide) (by simp [mayRaise]) fun _ h => montToEd_lt hp' h).andThen fun E1 hE1 =>
  (RunOk.internal (by decide) (by simp [mayRaise]) fun _ h => montToEd_lt hp' h).andThen fun E2 hE2 =>
  (RunOk.add (by simp [mayRaise]) fun _ => ⟨hE1.1, hE1.2, hE2.1, hE2.2⟩).andThen fun _ h =>
  (RunOk.add (by simp [mayRaise]) fun _ => ⟨h.1, h.2, h.1, h.2⟩).andThen fun _ h =>
  (RunOk.add (by simp [mayRaise]) fun _ => ⟨h.1, h.2, h.1, h.2⟩).andThen fun _ h =>
  RunOk.add (by simp [mayRaise]) fun _ => ⟨h.1, h.2, h.1, h.2⟩

/-- The end of a run: its effect is one of the three. -/
theorem answers_conclude {i : Instr} {s : State} {d : Reg} {r : Run Point} (hi : UsesPorts i) (hx : d ∈ destinations i)
    (hy : pairY d ∈ destinations i)
    (h : RunOk s.Canonical i s.build.p (answerLimit s) (fun R => R.x < s.build.p ∧ R.y < s.build.p) r) :
    Answers i s (concludeRun d s r) := by
  have hw : Writes i s (issue r.requests s) := Writes.issue hi h.requests
  unfold concludeRun
  cases he : r.ending with
  | value P => exact answers_commitPair hw hx hy fun _ => h.value P he
  | error e stage =>
    obtain ⟨h1, h2⟩ := h.error e stage he
    exact ⟨_, rfl, .raised e stage r.requests h1 h2 hw rfl⟩
  | waiting =>
    refine ⟨_, rfl, .waits r.requests (fun hn => h.waiting he (answerLimit_none hn)) hw rfl⟩

/-! ### All fourteen commands -/

theorem answers_exec (i : Instr) (s : State) : Answers i s (exec i s) := by
  have hp := Build.p_pos s.build
  have hp1 := s.build.valid.prime.one_lt
  have binary : ∀ {i : Instr} {op : Nat → Nat → Nat → Nat} {d a b : Reg}, (0 : Stage) ∈ mayRaise i .uninitialisedOperand →
      d ∈ destinations i → (∀ x y, op s.build.p x y < s.build.p) → Answers i s (binaryOp op d a b s) :=
    fun hi hd hop => answers_sources hi (answers_commitScalar (Writes.refl _ s) hd fun _ => hop _ _)
  cases i with
  | fld d =>
    simp only [exec, execFld]
    split
    · next h => exact answers_commitScalar (Writes.refl _ s) (by simp [destinations]) fun _ => h
    · exact answers_raise (by decide) (by simp [mayRaise])
  | fmov d a =>
    simp only [exec, execFmov]
    exact answers_source (by simp [mayRaise]) (answers_commitScalar (Writes.refl _ s) (by simp [destinations]) fun hc => hc a)
  | fadd d a b => exact binary (by simp [mayRaise]) (by simp [destinations]) (fadd_lt hp)
  | fsub d a b => exact binary (by simp [mayRaise]) (by simp [destinations]) (fsub_lt hp)
  | fmul d a b => exact binary (by simp [mayRaise]) (by simp [destinations]) (fmul_lt hp)
  | fpow d a b => exact binary (by simp [mayRaise]) (by simp [destinations]) (fpow_lt hp)
  | fneg d a =>
    simp only [exec, execFneg]
    exact answers_source (by simp [mayRaise])
      (answers_commitScalar (Writes.refl _ s) (by simp [destinations]) fun _ => fneg_lt hp _)
  | finv d a =>
    simp only [exec, execFinv]
    refine answers_source (by simp [mayRaise]) ?_
    split
    · exact answers_raise (by decide) (by simp [mayRaise])
    · exact answers_commitScalar (Writes.refl _ s) (by simp [destinations]) fun _ => finv_lt hp _
  | feq a b =>
    simp only [exec, execFeq]
    exact answers_sources (by simp [mayRaise]) (answers_commitNothing ((Writes.refl _ s).setEq _))
  | fsqrt d a =>
    simp only [exec, execFsqrt]
    refine answers_source (by simp [mayRaise]) ?_
    split
    · next y hy =>
      exact answers_commitScalar ((Writes.refl _ s).setNr _) (by simp [destinations]) fun _ => sqrtTS_lt hp hy
    · exact answers_commitNothing ((Writes.refl _ s).setNr _)
  | ell2 d a =>
    simp only [exec, execEll2]
    refine answers_pairField (by simp [mayRaise]) (answers_source (by simp [mayRaise]) ?_)
    split
    · next r hr =>
      exact answers_commitPair ((Writes.refl _ s).setBr _) (by simp [destinations]) (by simp [destinations, pairY])
        fun _ => ell2Map_lt hp hr
    · exact answers_raise (by decide) (by simp [mayRaise])
  | m2e d a =>
    simp only [exec, execM2e, withPairSource]
    refine answers_pairField (by simp [mayRaise]) (answers_pairField (by simp [mayRaise])
      (answers_sources (by simp [mayRaise]) ?_))
    split
    · next E hE =>
      exact answers_commitPair (Writes.refl _ s) (by simp [destinations]) (by simp [destinations, pairY])
        fun _ => montToEd_lt hp hE
    · exact answers_raise (by decide) (by simp [mayRaise])
  | h2f d a b =>
    simp only [exec, execH2f, h2fOver]
    refine answers_pairField (by simp [mayRaise]) (answers_sources (by simp [mayRaise])
      (answers_conclude ⟨d, a, b, .inl rfl⟩ (by simp [destinations]) (by simp [destinations, pairY]) ?_))
    exact (hashToField_ok (o := ⟨_, answerLimit s⟩) (by simp [mayRaise]) (by simp [mayRaise]) hp1 (fun hc => hc a)
      fun hc => hc b).andThen fun f hf => RunOk.done hf
  | h2c d a b =>
    simp only [exec, execH2c, h2cOver]
    refine answers_pairField (by simp [mayRaise]) (answers_sources (by simp [mayRaise])
      (answers_conclude ⟨d, a, b, .inr rfl⟩ (by simp [destinations]) (by simp [destinations, pairY]) ?_))
    exact hashToCurve_ok (o := ⟨_, answerLimit s⟩) d a b hp1 (fun hc => hc a) fun hc => hc b

/-- No command is refused, and none faults. -/
theorem exec_next (i : Instr) (s : State) : ∃ t, exec i s = .next t :=
  let ⟨t, h, _⟩ := answers_exec i s
  ⟨t, h⟩

/-- What is known of a command that answered `t`. -/
theorem exec_effect {i : Instr} {s t : State} (h : exec i s = .next t) : Effect i s t := by
  obtain ⟨u, hu, he⟩ := answers_exec i s
  rw [hu] at h
  cases h
  exact he

end Sys2Proof.Machine
end

