-- ==== Sys2Proof/Laws/PerInstr.lean ====
section
/-! SUPPORT. Statements about every command as syntax, one lemma per constructor. -/

namespace Sys2Proof.Laws

/-- The encoding of the command keeps the reserved bits 11:0 clear (30_encoding.md R103). -/
def ReservedBits.Statement (i : Instr) : Prop := (encode i).extractLsb' 0 12 = 0

theorem ReservedBits.fld (a : Reg) : ReservedBits.Statement (.fld a) := reserved_packFields _ _ _ _

theorem ReservedBits.fmov (a b : Reg) : ReservedBits.Statement (.fmov a b) := reserved_packFields _ _ _ _

theorem ReservedBits.fadd (a b c : Reg) : ReservedBits.Statement (.fadd a b c) := reserved_packFields _ _ _ _

theorem ReservedBits.fsub (a b c : Reg) : ReservedBits.Statement (.fsub a b c) := reserved_packFields _ _ _ _

theorem ReservedBits.fmul (a b c : Reg) : ReservedBits.Statement (.fmul a b c) := reserved_packFields _ _ _ _

theorem ReservedBits.fneg (a b : Reg) : ReservedBits.Statement (.fneg a b) := reserved_packFields _ _ _ _

theorem ReservedBits.finv (a b : Reg) : ReservedBits.Statement (.finv a b) := reserved_packFields _ _ _ _

theorem ReservedBits.fpow (a b c : Reg) : ReservedBits.Statement (.fpow a b c) := reserved_packFields _ _ _ _

theorem ReservedBits.feq (a b : Reg) : ReservedBits.Statement (.feq a b) := reserved_packFields _ _ _ _

theorem ReservedBits.fsqrt (a b : Reg) : ReservedBits.Statement (.fsqrt a b) := reserved_packFields _ _ _ _

theorem ReservedBits.ell2 (a b : Reg) : ReservedBits.Statement (.ell2 a b) := reserved_packFields _ _ _ _

theorem ReservedBits.m2e (a b : Reg) : ReservedBits.Statement (.m2e a b) := reserved_packFields _ _ _ _

theorem ReservedBits.h2f (a b c : Reg) : ReservedBits.Statement (.h2f a b c) := reserved_packFields _ _ _ _

theorem ReservedBits.h2c (a b c : Reg) : ReservedBits.Statement (.h2c a b c) := reserved_packFields _ _ _ _

end Sys2Proof.Laws
end

