-- ==== Sys2Proof/Laws/Words.lean ====
section
/-! SUPPORT. Words of a 256-bit value: splitting and joining lose nothing. -/

namespace Sys2Proof.Laws

open Sys2Proof.Machine

/-- A number below `2 ^ (32·n)` made of `n` words, least significant first. -/
theorem foldr_words_lt (ws : List Word) :
    ws.foldr (fun x rest => x.toNat + 2 ^ 32 * rest) 0 < 2 ^ (32 * ws.length) := by
  induction ws with
  | nil => simp
  | cons w ws ih =>
    have hw := w.isLt
    rw [List.foldr_cons, List.length_cons, Nat.mul_succ, Nat.pow_add]
    generalize 2 ^ (32 * ws.length) = n at *
    omega

/-- The words of a joined value as an integer: no bit is lost (10_state.md R45). -/
theorem joinWords_toNat (w : Vector Word 8) :
    (joinWords w).toNat = w.toList.foldr (fun x rest => x.toNat + 2 ^ 32 * rest) 0 := by
  have := foldr_words_lt w.toList
  rw [Vector.length_toList] at this
  simpa [joinWords] using Nat.mod_eq_of_lt this

/-- Division by `2 ^ (32·k)` drops `k` words, and the remainder by `2 ^ 32` is the first of the rest. -/
theorem foldr_words_get (ws : List Word) : ∀ (k : Nat) (h : k < ws.length),
    ws.foldr (fun x rest => x.toNat + 2 ^ 32 * rest) 0 / 2 ^ (32 * k) % 2 ^ 32 = (ws[k]'h).toNat := by
  induction ws with
  | nil => intro k h; simp at h
  | cons w ws ih =>
    intro k h
    have hw := w.isLt
    simp only [List.foldr_cons]
    cases k with
    | zero => simpa using hw
    | succ k =>
      have := ih k (by simpa using h)
      rw [Nat.mul_succ, Nat.add_comm (32 * k), Nat.pow_add, ← Nat.div_div_eq_div_mul]
      rw [Nat.add_mul_div_left _ _ (by decide), Nat.div_eq_of_lt hw, Nat.zero_add, this]
      rfl

/-- Word `k` of a joined value is the `k`-th word (20_memory.md R76). -/
theorem wordOf_joinWords (w : Vector Word 8) (k : Fin 8) : wordOf (joinWords w) k = w[k] := by
  apply BitVec.eq_of_toNat_eq
  have := foldr_words_get w.toList k.val (by simp)
  rw [wordOf, BitVec.extractLsb'_toNat, joinWords_toNat, Nat.shiftRight_eq_div_pow, this]
  simp

/-- The first `n` words of a number sum up to its remainder by `2 ^ (32·n)`. -/
theorem sum_words (v : Nat) (n : Nat) :
    ∑ k ∈ Finset.range n, v / 2 ^ (32 * k) % 2 ^ 32 * 2 ^ (32 * k) = v % 2 ^ (32 * n) := by
  induction n with
  | zero => simp [Nat.mod_one]
  | succ n ih =>
    rw [Finset.sum_range_succ, ih, Nat.mul_succ, Nat.pow_add, Nat.mod_mul, Nat.mul_comm (v / _ % _)]

/-- A 256-bit value is the sum of its words times `2 ^ (32·k)` (20_memory.md R76). -/
theorem sum_wordOf (v : Elem) :
    ((List.finRange 8).map fun k : Fin 8 => (wordOf v k).toNat * 2 ^ (32 * k.val)).sum = v.toNat := by
  have h := sum_words v.toNat 8
  rw [Nat.mod_eq_of_lt v.isLt, Finset.sum_range] at h
  rw [← Fin.sum_univ_def, ← h]
  exact Finset.sum_congr rfl fun k _ => by rw [wordOf, BitVec.extractLsb'_toNat, Nat.shiftRight_eq_div_pow]

end Sys2Proof.Laws
end

