-- ==== Sys2Proof/Laws/Window.lean ====
section
/-! SUPPORT. The address map of the window, place by place (20_memory.md R71). -/

namespace Sys2Proof.Laws

open Sys2Proof.Machine

@[simp] theorem windowReg_wbuf (k : Fin 8) : windowReg (0x040 + 4 * k.val) = .wbuf k := by revert k; decide

@[simp] theorem windowReg_pWord (k : Fin 8) : windowReg (0x100 + 4 * k.val) = .pWord k := by revert k; decide

@[simp] theorem windowReg_jWord (k : Fin 8) : windowReg (0x120 + 4 * k.val) = .jWord k := by revert k; decide

@[simp] theorem windowReg_zWord (k : Fin 8) : windowReg (0x140 + 4 * k.val) = .zWord k := by revert k; decide

@[simp] theorem windowReg_freg (r : Reg) (k : Fin 8) : windowReg (0x400 + 0x20 * r.val + 4 * k.val) = .freg r k := by
  revert r k; decide

/-- The reserved offsets of R71. -/
theorem windowReg_reserved {off : Nat}
    (h : (0x01C ≤ off ∧ off < 0x040) ∨ (0x060 ≤ off ∧ off < 0x100) ∨ (0x160 ≤ off ∧ off < 0x400) ∨ 0x600 ≤ off) :
    windowReg off = .reserved := by
  unfold windowReg
  rcases h with h | h | h | h
  all_goals
    repeat rw [if_neg (by omega)]
    try rw [if_pos (by omega)]

/-- Only CTRL, STATUS, CMD and WBUF answer a write (R78). -/
theorem write_readOnly {off : Nat} (h4 : off % 4 = 0) (h1 : off ≠ 0x00C) (h2 : off ≠ 0x010) (h3 : off ≠ 0x014)
    (h : off < 0x040 ∨ 0x060 ≤ off) (v : Word) (s : State) : (windowReg off).write v s = s := by
  have branch : ∀ {c : Prop} [Decidable c] {x y : WindowReg}, (c → x.write v s = s) → (¬c → y.write v s = s) →
      (if c then x else y).write v s = s := by
    intro c _ x y hx hy
    by_cases hc : c
    · rw [if_pos hc, hx hc]
    · rw [if_neg hc, hy hc]
  unfold windowReg
  iterate 3 refine branch (fun _ => rfl) fun _ => ?_
  iterate 3 refine branch (fun _ => by omega) fun _ => ?_
  iterate 2 refine branch (fun _ => rfl) fun _ => ?_
  refine branch (fun _ => by omega) fun _ => ?_
  iterate 6 refine branch (fun _ => rfl) fun _ => ?_
  rfl

end Sys2Proof.Laws
end

