-- ==== Sys2Proof/Machine/Assembler.lean ====
section
/-! DEFINITION. The assembler spelling of command words (30_encoding.md R118): a notation, on characters, for `Instr`.
It has no meaning beyond the words `encode` gives. -/

namespace Sys2Proof.Machine

/-- An operand as it is written: `f0` to `f15`, or `pr0` to `pr7`. -/
inductive Operand where
  | scalar (r : Reg)
  | pair (k : Fin 8)
deriving DecidableEq, Repr

/-- The even index that `pr<k>` encodes as. -/
def pairField (k : Fin 8) : Reg := ⟨2 * k.val, by omega⟩

/-- The part of a line before its comment. -/
def dropComment (line : List Char) : List Char := line.takeWhile (· != ';')

def isBlank (c : Char) : Bool := c == ' ' || c == '\t'

/-- Without blanks at either end. -/
def trimBlanks (cs : List Char) : List Char := ((cs.dropWhile isBlank).reverse.dropWhile isBlank).reverse

/-- The pieces between commas. -/
def splitCommas : List Char → List (List Char)
  | [] => [[]]
  | c :: cs =>
    match splitCommas cs with
    | [] => [[c]]
    | piece :: rest => if c = ',' then [] :: piece :: rest else (c :: piece) :: rest

/-- The value of one decimal digit. -/
def digit (c : Char) : Option Nat := if c.isDigit then some (c.toNat - '0'.toNat) else none

/-- A register name. -/
def readOperand : List Char → Option Operand
  | ['f', c] => (digit c).map fun n => .scalar (Fin.ofNat 16 n)
  | ['f', '1', c] => (digit c).bind fun n => if n < 6 then some (.scalar (Fin.ofNat 16 (10 + n))) else none
  | ['p', 'r', c] => (digit c).bind fun n => if n < 8 then some (.pair (Fin.ofNat 8 n)) else none
  | _ => none

/-- The command a mnemonic and its operands stand for, the operands in the order of R106's column. -/
def buildCommand : List Char → List Operand → Option Instr
  | ['F', 'L', 'D'], [.scalar d] => some (.fld d)
  | ['F', 'M', 'O', 'V'], [.scalar d, .scalar a] => some (.fmov d a)
  | ['F', 'A', 'D', 'D'], [.scalar d, .scalar a, .scalar b] => some (.fadd d a b)
  | ['F', 'S', 'U', 'B'], [.scalar d, .scalar a, .scalar b] => some (.fsub d a b)
  | ['F', 'M', 'U', 'L'], [.scalar d, .scalar a, .scalar b] => some (.fmul d a b)
  | ['F', 'N', 'E', 'G'], [.scalar d, .scalar a] => some (.fneg d a)
  | ['F', 'I', 'N', 'V'], [.scalar d, .scalar a] => some (.finv d a)
  | ['F', 'P', 'O', 'W'], [.scalar d, .scalar a, .scalar b] => some (.fpow d a b)
  | ['F', 'E', 'Q'], [.scalar a, .scalar b] => some (.feq a b)
  | ['F', 'S', 'Q', 'R', 'T'], [.scalar d, .scalar a] => some (.fsqrt d a)
  | ['E', 'L', 'L', '2'], [.pair d, .scalar a] => some (.ell2 (pairField d) a)
  | ['M', '2', 'E'], [.pair d, .pair a] => some (.m2e (pairField d) (pairField a))
  | ['H', '2', 'F'], [.pair d, .scalar a, .scalar b] => some (.h2f (pairField d) a b)
  | ['H', '2', 'C'], [.pair d, .scalar a, .scalar b] => some (.h2c (pairField d) a b)
  | _, _ => none

/-- One line of assembler: a case-insensitive mnemonic, then operands separated by commas. -/
def assemble (line : List Char) : Option Instr :=
  let body := trimBlanks (dropComment line)
  let name := body.takeWhile fun c => !isBlank c
  let pieces := (splitCommas (body.dropWhile fun c => !isBlank c)).map trimBlanks
  (pieces.mapM readOperand).bind (buildCommand (name.map Char.toUpper))

end Sys2Proof.Machine
end

