-- ==== Sys2Proof/Machine/Script.lean ====
section
/-! DEFINITION. Pseudo-instructions and host script notation (30_encoding.md R119), as the inputs they stand for. -/

namespace Sys2Proof.Machine

/-- `MemRead(off, 4)` by the host of a core built with `c` (00_scope.md R13). -/
def memRead (c : Params) (off : Nat) : Input := .hostRead ⟨c.base + off, 4⟩

/-- `MemWrite(off, 4, v)`. -/
def memWrite (c : Params) (off : Nat) (v : Word) : Input := .hostWrite ⟨c.base + off, 4⟩ v

/-- A command line: its word is written to CMD. -/
def issueCommand (c : Params) (i : Instr) : Input := memWrite c 0x014 (encode i)

/-- `wbuf V`: the eight words of `V`, least significant first. -/
def wbufScript (c : Params) (v : Elem) : List Input :=
  (List.finRange 8).map fun k => memWrite c (0x040 + 4 * k.val) (wordOf v k)

/-- `wait`: polls of STATUS until BUSY reads 0. The unit completes after the first `n` polls, a number nothing fixes
(70_reset_and_hazards.md R300); a claim about a program holds for every `n`. -/
def waitScript (c : Params) (n : Nat) : List Input :=
  List.replicate n (memRead c 0x010) ++ [.unit, memRead c 0x010]

/-- `li fd, V`. -/
def liScript (c : Params) (fd : Reg) (v : Elem) (n : Nat) : List Input :=
  wbufScript c v ++ [issueCommand c (.fld fd)] ++ waitScript c n

/-- `rd fd`: the eight words of `F[fd]`. -/
def rdScript (c : Params) (fd : Reg) : List Input :=
  (List.finRange 8).map fun k => memRead c (0x400 + 0x20 * fd.val + 4 * k.val)

/-- `clr`: clear DONE, ERR and COLL. -/
def clrScript (c : Params) : List Input := [memWrite c 0x010 0x0000000E#32]

/-- `if NR goto`, `if EQ goto`, `if ERR goto`: the bit of a STATUS word the host branches on. -/
def branchesOnNr (status : Word) : Bool := status[5]
def branchesOnEq (status : Word) : Bool := status[4]
def branchesOnErr (status : Word) : Bool := status[2]

/-- The pseudo-instructions. The pair operands of FCPY are even indices. -/
inductive Pseudo where
  | fsqr (fd fs : Reg)
  | fdbl (fd fs : Reg)
  | fdiv (fd fa fb ft : Reg)
  | fcpy (prd prs : Reg)
deriving DecidableEq, Repr

/-- The core commands a pseudo-instruction expands to. -/
def Pseudo.commands : Pseudo → List Instr
  | .fsqr fd fs => [.fmul fd fs fs]
  | .fdbl fd fs => [.fadd fd fs fs]
  | .fdiv fd fa fb ft => [.finv ft fb, .fmul fd fa ft]
  | .fcpy prd prs => [.fmov prd prs, .fmov (pairY prd) (pairY prs)]

/-- A pseudo-instruction as host inputs: the host waits between two commands (70_reset_and_hazards.md R295). -/
def Pseudo.script (c : Params) (n : Nat) (p : Pseudo) : List Input :=
  (p.commands.map fun i => [issueCommand c i]).intersperse (waitScript c n) |>.flatten

end Sys2Proof.Machine
end

