-- ==== Sys2Proof/Tests/Slice0.lean ====
section
/-! SUPPORT. Tests. Every expected value is the spec's own (95_test_vectors.md, or the rule named), none the model's. -/

open Sys2Proof Sys2Proof.Machine Sys2Proof.Spec

namespace Sys2Proof.Tests

/-! ### Small states -/

/-- The core of build `b` after reset, with these values loaded. -/
def loaded (b : Build) (regs : List (Reg × Nat)) : State :=
  regs.foldl (fun s x => writeReg x.1 (toElem x.2) s) { State.reset with build := b }

/-- The next state, for a step that has one. -/
def after : Result → Option State
  | .next s => some s
  | .fault _ => none
  | .refused _ => none

/-- The word STATUS reads after a step. -/
def statusAfter (r : Result) : Option Word := (after r).map fun s => readWord s 0x010

/-- What the registers `rs` hold after a step, `none` for one that is not valid. -/
def regsAfter (r : Result) (rs : List Reg) : Option (List (Option Nat)) :=
  (after r).map fun s => rs.map fun i => if s.isValid i then some (s.elem i) else none

/-- BUSY with the word `w` in its latch, and these inputs to come. -/
def busyWith (s : State) (w : Word) (inputs : List Input) : State := { accept w s with inputs := inputs }

/-- The test hash of 00_scope.md R9, and the T97 addition law (twisted Edwards, `a = 9`, `d = 5`). -/
def testHash (a b c : Nat) : Elem := toElem ((a * a + 3 * b + 5 * c + 7) % 97)

def testAdd (P Q : Point) : Elem × Elem :=
  let m := fmul 97
  let k := m 5 (m (m P.x Q.x) (m P.y Q.y))
  (toElem (m (fadd 97 (m P.x Q.y) (m P.y Q.x)) (finv 97 (fadd 97 1 k))),
    toElem (m (fsub 97 (m P.y Q.y) (m 9 (m P.x Q.x))) (finv 97 (fsub 97 1 k))))

def testPorts : Ports := ⟨testHash, testAdd⟩

/-- Fixtures of 95_test_vectors.md section 6.4: a hash that answers 97 when `b = 1`, a group law that answers (97, 0). -/
def badHashPorts : Ports := ⟨fun a b c => if b = 1 then 97 else testHash a b c, testAdd⟩

def badAddPorts : Ports := ⟨testHash, fun _ _ => (97, 0)⟩

/-! ### WellFormed refuses an odd pair field, once for each check -/

theorem test_ill_formed_ell2 : (Instr.ell2 3 0).wellFormed = false := by decide

theorem test_ill_formed_m2e_destination : (Instr.m2e 5 2).wellFormed = false := by decide

theorem test_ill_formed_m2e_source : (Instr.m2e 4 1).wellFormed = false := by decide

theorem test_ill_formed_h2f : (Instr.h2f 15 15 15).wellFormed = false := by decide

theorem test_ill_formed_h2c : (Instr.h2c 5 0 1).wellFormed = false := by decide

theorem test_well_formed_odd_scalars : (Instr.h2c 14 15 15).wellFormed = true := by decide

/-! ### Decoding: words written out bit by bit from 30_encoding.md R101 (op, rd, rs1, rs2, reserved) -/

theorem test_decode_fld : decode 0b00000001_0010_0000_0000_000000000000#32 = .ok (.fld 2) := by rfl
theorem test_decode_fmov : decode 0b00000010_0000_0001_0000_000000000000#32 = .ok (.fmov 0 1) := by rfl
theorem test_decode_fadd : decode 0b00010000_0011_0001_0010_000000000000#32 = .ok (.fadd 3 1 2) := by rfl
theorem test_decode_fsub : decode 0b00010001_0011_0001_0010_000000000000#32 = .ok (.fsub 3 1 2) := by rfl
theorem test_decode_fmul : decode 0b00010010_0011_0001_0010_000000000000#32 = .ok (.fmul 3 1 2) := by rfl
theorem test_decode_fneg : decode 0b00010011_0010_0001_0000_000000000000#32 = .ok (.fneg 2 1) := by rfl
theorem test_decode_finv : decode 0b00010100_0010_0001_0000_000000000000#32 = .ok (.finv 2 1) := by rfl
theorem test_decode_fpow : decode 0b00010101_0011_0001_0010_000000000000#32 = .ok (.fpow 3 1 2) := by rfl
theorem test_decode_feq : decode 0b00010110_0000_0001_0010_000000000000#32 = .ok (.feq 1 2) := by rfl
theorem test_decode_fsqrt : decode 0b00100000_0010_0001_0000_000000000000#32 = .ok (.fsqrt 2 1) := by rfl
theorem test_decode_ell2 : decode 0b00110000_0010_0000_0000_000000000000#32 = .ok (.ell2 2 0) := by rfl
theorem test_decode_m2e : decode 0b00111000_0100_0010_0000_000000000000#32 = .ok (.m2e 4 2) := by rfl
theorem test_decode_h2f : decode 0b01000000_1110_1111_1111_000000000000#32 = .ok (.h2f 14 15 15) := by rfl
theorem test_decode_h2c : decode 0b01000001_0110_0000_0001_000000000000#32 = .ok (.h2c 6 0 1) := by rfl

/-- The illegal words of 95_test_vectors.md section 7.2. -/
theorem test_decode_illegal :
    [0x00000000#32, 0x03000000#32, 0xFF000000#32, 0x10312001#32, 0x02010001#32, 0x01010000#32, 0x13211000#32,
      0x16112000#32, 0x30100000#32, 0x38410000#32, 0x41501000#32, 0x40FFF000#32].map (fun w => (decode w).toOption) =
    List.replicate 12 none := by decide

/-- No two rows of the opcode map overlap (R106). -/
theorem test_rows_disjoint :
    (opcodeMap.map fun row => row.fixed.extractLsb' 24 8).Pairwise (· ≠ ·) := by decide

theorem test_table_word : decodeTableWord 32 0x41601000 = some (.h2c 6 0 1) := by decide

/-- Assembler lines of R118 and of program L3-3. -/
theorem test_assemble :
    ["FADD f3, f1, f2".toList, "h2c pr3,f0 , f1 ; comment".toList, "m2e pr5, pr4".toList, "FLD f16".toList,
      "ELL2 f2, f0".toList].map (fun l => (assemble l).map encode) =
    [some 0x10312000#32, some 0x41601000#32, some 0x38A80000#32, none, none] := by decide +kernel

/-! ### One step of each command -/

theorem test_fld_canonical :
    regsAfter (step ({ State.reset with wbuf := State.reset.wbuf.set 0 5 }.withFetchWord 32 0x01200000)) [2] =
      some [some 5] := by decide +kernel

theorem test_fld_rejects_p :
    statusAfter (step (({ loaded Build.t97 [] with wbuf := State.reset.wbuf.set 0 97 }).withFetchWord 32 0x01000000)) =
      some 0x00000206 := by decide +kernel

theorem test_fmov_copies : regsAfter (exec (.fmov 0 1) (loaded Build.bjj [(1, 7)])) [0, 1] = some [some 7, some 7] := by
  decide +kernel

theorem test_fmov_uninitialised : statusAfter (exec (.fmov 0 1) (loaded Build.bjj [])) = some 0x00000606 := by
  decide +kernel

theorem test_fadd_wraps : regsAfter (exec (.fadd 1 1 1) (loaded Build.t97 [(1, 96)])) [1] = some [some 95] := by
  decide +kernel

theorem test_fadd_second_source_invalid :
    statusAfter (exec (.fadd 3 1 2) (loaded Build.t97 [(1, 2)])) = some 0x00000606 := by decide +kernel

theorem test_fsub_order : regsAfter (exec (.fsub 3 1 2) (loaded Build.t97 [(1, 10), (2, 20)])) [3] = some [some 87] := by
  decide +kernel

theorem test_fsub_bjj :
    regsAfter (exec (.fsub 3 1 2) (loaded Build.bjj [(1, 0), (2, 1)])) [3] =
      some [some 21888242871839275222246405745257275088548364400416034343698204186575808495616] := by decide +kernel

theorem test_fmul_square : regsAfter (exec (.fmul 3 1 1) (loaded Build.t97 [(1, 50)])) [3] = some [some 75] := by
  decide +kernel

theorem test_fneg_zero : regsAfter (exec (.fneg 2 1) (loaded Build.t97 [(1, 0)])) [2] = some [some 0] := by
  decide +kernel

theorem test_fneg_five : regsAfter (exec (.fneg 2 1) (loaded Build.t97 [(1, 5)])) [2] = some [some 92] := by
  decide +kernel

theorem test_finv_bjj :
    regsAfter (exec (.finv 2 1) (loaded Build.bjj [(1, 3)])) [2] =
      some [some 14592161914559516814830937163504850059032242933610689562465469457717205663745] := by decide +kernel

theorem test_finv_zero : statusAfter (exec (.finv 2 1) (loaded Build.t97 [(1, 0)])) = some 0x00000306 := by
  decide +kernel

theorem test_fpow_zero_zero : regsAfter (exec (.fpow 3 1 1) (loaded Build.t97 [(1, 0)])) [3] = some [some 1] := by
  decide +kernel

theorem test_fpow_order : regsAfter (exec (.fpow 3 1 2) (loaded Build.t97 [(1, 10), (2, 3)])) [3] = some [some 30] := by
  decide +kernel

theorem test_feq_equal : statusAfter (exec (.feq 1 2) (loaded Build.t97 [(1, 3), (2, 3)])) = some 0x00000012 := by
  decide +kernel

theorem test_feq_clears : statusAfter (exec (.feq 1 2) (setEq true (loaded Build.t97 [(1, 3), (2, 4)]))) =
    some 0x00000002 := by decide +kernel

/-- Every square of T97 with its root (95_test_vectors.md section 2.1); every other input has none. -/
theorem test_fsqrt_t97 :
    ((List.range 97).filterMap fun n => (sqrtTS Build.t97.toParams n).map fun r => (n, r)) =
      [(0, 0), (1, 1), (2, 14), (3, 10), (4, 2), (6, 43), (8, 28), (9, 3), (11, 37), (12, 20), (16, 4), (18, 42),
        (22, 33), (24, 11), (25, 5), (27, 30), (31, 15), (32, 41), (33, 18), (35, 36), (36, 6), (43, 25), (44, 23),
        (47, 12), (48, 40)] ++
      [(49, 7), (50, 27), (53, 21), (54, 32), (61, 35), (62, 16), (64, 8), (65, 29), (66, 39), (70, 19), (72, 13),
        (73, 48), (75, 47), (79, 46), (81, 9), (85, 45), (86, 38), (88, 31), (89, 34), (91, 24), (93, 44), (94, 26),
        (95, 17), (96, 22)] := by decide +kernel

/-- The command writes the root of 2 in BJJ; for 5 it writes nothing and sets NR (section 2.3). -/
theorem test_fsqrt_bjj :
    regsAfter (exec (.fsqrt 2 1) (loaded Build.bjj [(1, 2)])) [2] =
      some [some 6265726278199534483148339147879825670854228981575640389718095647651409606938] ∧
    regsAfter (exec (.fsqrt 2 1) (loaded Build.bjj [(1, 5)])) [2] = some [none] ∧
    statusAfter (exec (.fsqrt 2 1) (loaded Build.bjj [(1, 5)])) = some 0x00000022 := by decide +kernel

/-- Rows of 95_test_vectors.md section 4.1 (T97) and 4.3 (BJJ, `u = 3`), through the command. -/
theorem test_ell2_points :
    [0, 1, 4, 12, 36, 58, 96].map (fun u => regsAfter (exec (.ell2 2 0) (loaded Build.t97 [(0, u)])) [2, 3]) =
      [some [some 0, some 0], some [some 15, some 55], some [some 35, some 50], some [some 74, some 90],
        some [some 95, some 42], some [some 15, some 42], some [some 15, some 55]] ∧
    regsAfter (exec (.ell2 2 0) (loaded Build.bjj [(0, 3)])) [2, 3] =
      some [some 19033254671164587149779483256745456598737708174274812472781047118761572601217,
        some 18043104490160516398056968544042562747440876056773218268191363619601727704623] := by decide +kernel

/-- The exceptional denominators (section 4.2): T19 maps, T19' has no root, T11 gives an even `y`. -/
theorem test_ell2_exceptional :
    regsAfter (exec (.ell2 2 0) (loaded Build.t19 [(0, 3)])) [2, 3] = some [some 8, some 3] ∧
    statusAfter (exec (.ell2 2 0) (loaded Build.t19' [(0, 3)])) = some 0x00000406 ∧
    regsAfter (exec (.ell2 2 0) (loaded Build.t11 [(0, 8)])) [2, 3] = some [some 3, some 0] := by decide +kernel

theorem test_m2e_overlap :
    regsAfter (exec (.m2e 0 0) (loaded Build.t97 [(0, 15), (1, 55)])) [0, 1] = some [some 62, some 13] := by
  decide +kernel

theorem test_m2e_singular :
    statusAfter (exec (.m2e 10 8) (setBr true (loaded Build.t97 [(8, 0), (9, 0)]))) = some 0x00000546 := by
  decide +kernel

/-- Sections 6.1 and 6.4. -/
theorem test_h2f :
    regsAfter (h2fOver testPorts 2 0 1 (loaded Build.t97 [(0, 42), (1, 26)])) [2, 3] = some [some 58, some 12] ∧
    statusAfter (h2fOver badHashPorts 2 0 1 (loaded Build.t97 [(0, 42), (1, 26)])) = some 0x00020706 := by
  decide +kernel

/-- Section 6.2, with the destination over the sources; section 6.4. -/
theorem test_h2c :
    regsAfter (h2cOver testPorts 0 0 1 (loaded Build.t97 [(0, 42), (1, 26)])) [0, 1] = some [some 46, some 38] ∧
    statusAfter (h2cOver testPorts 2 0 1 (loaded Build.t97 [(0, 0), (1, 18)])) = some 0x00050506 ∧
    statusAfter (h2cOver badAddPorts 2 0 1 (loaded Build.t97 [(0, 42), (1, 26)])) = some 0x00070706 := by
  decide +kernel

/-- The six requests of H2C (section 6.2), in order. -/
theorem test_h2c_requests :
    (after (h2cOver testPorts 4 0 1 (loaded Build.t97 [(0, 42), (1, 26)]))).map (·.requests) =
      some [.hash 42 0 26, .hash 58 1 26, .edadd ⟨35, 13⟩ ⟨31, 54⟩, .edadd ⟨76, 68⟩ ⟨76, 68⟩,
        .edadd ⟨52, 41⟩ ⟨52, 41⟩, .edadd ⟨46, 59⟩ ⟨46, 59⟩] := by decide +kernel

/-! ### The register window (section 8) -/

/-- The words a fresh BJJ core shows. -/
theorem test_window_bjj :
    [0x000, 0x004, 0x008, 0x00C, 0x010, 0x014, 0x018, 0x01C, 0x100, 0x104, 0x11C, 0x120, 0x124, 0x140, 0x400, 0x600].map
      (readWord State.reset) =
    [0x48324331, 1, 0x001C0810, 0, 0, 0, 0, 0, 0xf0000001, 0x43e1f593, 0x30644e72, 0x000292FA, 0, 5, 0, 0] := by
  decide +kernel

/-- `rd f6` of program L3-1: the words of `p - 1`, and VALIDR. -/
theorem test_window_freg :
    [0x4C0, 0x4C4, 0x4DC, 0x4E0, 0x4BC].map (readWord (loaded Build.bjj [(6, Build.bjj.p - 1)])) =
      [0xf0000000, 0x43e1f593, 0x30644e72, 0, 0] ∧
    readWord (loaded Build.bjj [(6, Build.bjj.p - 1)]) 0x018 = 0x00000040 := by decide +kernel

/-- The STATUS writes of section 8, from `0x00000306` and `0x0000000A`. -/
theorem test_status_clear :
    let s := raise .divByZero 0 (loaded Build.bjj [])
    let t := collide (finish (loaded Build.bjj []))
    [(writeWord s 0x010 0x4), (writeWord s 0x010 0x2), (writeWord t 0x010 0x8)].map (readWord · 0x010) =
      [0x2, 0x0, 0x2] := by decide +kernel

/-- IRQ of section 8: raised by DONE when enabled, lowered by `clr`. -/
theorem test_irq :
    let s := { finish (loaded Build.bjj []) with irqEn := true }
    (irq s, irq (writeWord s 0x010 0xE), irq { s with irqEn := false }) = (true, false, false) := by decide +kernel

theorem test_soft_reset :
    writeWord { loaded Build.t97 [(1, 7)] with irqEn := true } 0x00C 3 = loaded Build.t97 [] := by decide +kernel

/-- A byte access is refused, and so is one outside the window (20_memory.md R72). -/
theorem test_refused_accesses :
    (after (hostRead ⟨0x010, 1⟩ State.reset), after (hostWrite ⟨0x012, 4⟩ 0 State.reset),
      after (hostRead ⟨0x1000, 4⟩ State.reset)) = (none, none, none) := by decide +kernel

/-- Program L3-5, outcome B: the second CMD write finds the unit BUSY. -/
theorem test_collision :
    let s := busyWith (loaded Build.bjj [(2, 0)]) 0x10322000 [.hostWrite ⟨0x014, 4⟩ 0x10422000]
    ((after (step s)).map fun t => (readWord t 0x010, readWord t 0x014)) = some (0x00000009, 0x10322000) := by
  decide +kernel

/-- `clr` and FDIV as host scripts (30_encoding.md R119). -/
theorem test_scripts :
    clrScript Build.bjj.toParams = [.hostWrite ⟨0x010, 4⟩ 0x0000000E] ∧
    Pseudo.script Build.bjj.toParams 1 (.fdiv 5 1 2 6) =
      [.hostWrite ⟨0x014, 4⟩ 0x14620000, .hostRead ⟨0x010, 4⟩, .unit, .hostRead ⟨0x010, 4⟩,
        .hostWrite ⟨0x014, 4⟩ 0x12516000] := by decide +kernel

/-! ### Witnesses: for every statement with hypotheses, a state and operands that meet them all together -/

/-- Profile T97 with the window away from address 0. -/
def high : Build where
  toParams := { p := 97, J := 7, z := 5, cTS := 28, base := 0x40000000 }
  valid := Params.valid_of_check _ (by norm_num) (by decide +kernel)

/-- The state of a next step (the reset state for a step that has none). -/
def stateOf : Result → State
  | .next s => s
  | .fault _ => State.reset
  | .refused _ => State.reset

theorem exec_stateOf (i : Instr) (s : State) : exec i s = .next (stateOf (exec i s)) := by
  obtain ⟨t, h⟩ := exec_next i s
  rw [h]; rfl

theorem unitStep_stateOf (s : State) : unitStep s = .next (stateOf (unitStep s)) := by
  rcases unitStep_cases s with ⟨_, h⟩ | ⟨_, i, _, h⟩ | ⟨_, _, h⟩ <;> rw [h]
  · rfl
  · exact exec_stateOf i s
  · rfl

theorem step_unit_next {s : State} {rest : List Input} (hr : s.resetHeld = false) (h : s.inputs = .unit :: rest) :
    ∃ t, step s = .next t :=
  ⟨_, (step_cons_released hr h).trans (unitStep_stateOf { s with inputs := rest })⟩

/-- A BUSY state that meets the invariant. -/
theorem busyInv : (busyWith (loaded Build.t97 [(1, 96)]) 0x02010000 [.unit]).Inv := by
  refine ⟨?_, ?_, ⟨?_, ?_, ?_, ?_, ?_⟩, ?_, ?_, ?_⟩
  · unfold State.Canonical; decide +kernel
  · unfold State.InvalidIsZero; decide +kernel
  · decide +kernel
  · decide +kernel
  · decide +kernel
  · decide +kernel
  · decide +kernel
  · decide +kernel
  · intro r hr; cases hr
  · intro h; cases h

theorem witness_ResetFromAnyState :
    let s := busyWith (loaded Build.bjj [(1, 7)]) 0x10312000
    let held := { State.reset with resetHeld := true, inputs := [.resetInput false] }
    (s [.resetInput true]).inputs = .resetInput true :: [] ∧ (s []).status.busy = true ∧
      (held.inputs = .resetInput false :: [] ∧ held.resetHeld = true) ∧
      WritesNext (s [.hostWrite ⟨0x00C, 4⟩ 3]) 0x00C 3 [] ∧ (3 : Word)[1] = true := ⟨rfl, rfl, ⟨rfl, rfl⟩, ⟨rfl, rfl⟩, rfl⟩

/-- A BUSY core whose reset input goes high, a step while it is high, and the release with a command after it. -/
theorem witness_ResetHeld :
    let s := busyWith (loaded Build.bjj [(1, 7)]) 0x10312000 [.resetInput true]
    let held (inputs : List Input) := { State.reset with resetHeld := true, inputs := inputs }
    s.inputs = .resetInput true :: [] ∧ (held [.resetInput false]).resetHeld = true ∧
      (∃ t, (held []).resetHeld = true ∧ step (held []) = .next t) ∧
      (∃ t, step (held [.resetInput false]) = .next t ∧ t.resetHeld = false) ∧
      (held [.resetInput false, .hostWrite ⟨0x014, 4⟩ 0x01000000]).inputs =
        .resetInput false :: .hostWrite ⟨(held []).build.base + 0x014, 4⟩ 0x01000000 :: [] :=
  ⟨rfl, rfl, ⟨_, rfl, rfl⟩, ⟨_, rfl, rfl⟩, rfl⟩

/-- A BUSY core, the reset input not asserted, that meets a release. -/
theorem witness_ReleaseWithoutAssertion :
    let s := busyWith (loaded Build.bjj [(1, 7)]) 0x10312000 [.resetInput false]
    s.resetHeld = false ∧ s.inputs = .resetInput false :: [] := ⟨rfl, rfl⟩

/-- A write to CMD and a read of the window's last word while the reset input is asserted. -/
theorem witness_AccessesUnderReset :
    let held (i : Input) := { State.reset with resetHeld := true, inputs := [i] }
    let w := held (.hostWrite ⟨0x014, 4⟩ 0x01000000)
    let r := held (.hostRead ⟨0xFFC, 4⟩)
    (w.resetHeld = true ∧ w.inputs = .hostWrite ⟨w.build.base + 0x014, 4⟩ 0x01000000 :: []) ∧
      r.resetHeld = true ∧ r.inputs = .hostRead ⟨r.build.base + 0xFFC, 4⟩ :: [] := ⟨⟨rfl, rfl⟩, rfl, rfl⟩

/-- Asserted, a write is lost and the unit idle; released, the same write is accepted (R290). -/
theorem test_reset_held :
    let write : Input := .hostWrite ⟨0x014, 4⟩ 0x01200000
    let s := busyWith (loaded Build.t97 [(1, 7)]) 0x10312000
    let readAfter (n : Nat) (inputs : List Input) :=
      (after (core.run n (s inputs))).map fun t : State => (readWord t 0x010, readWord t 0x014, readWord t 0x420)
    readAfter 3 [.resetInput true, write, .unit] = some (0, 0, 0) ∧
      readAfter 3 [.resetInput true, .resetInput false, write] = some (1, 0x01200000, 0) := by decide +kernel

theorem witness_EncodeThenDecode : (Instr.m2e 14 14).wellFormed = true ∧ (Instr.fadd 15 15 15).wellFormed = true := by
  decide

theorem witness_DecodeThenEncode : decode 0x41EFF000#32 = .ok (.h2c 14 15 15) := by rfl

/-- One word on each side, at the edge of a field: bit 20 of H2C. -/
theorem witness_IllegalWords :
    let s := { loaded Build.bjj [(6, 1)] with inputs := [.hostWrite ⟨0x014, 4⟩ 0x41701000, .unit] }
    decode 0x41601000#32 = .ok (.h2c 6 0 1) ∧ decode 0x41701000#32 = .error .fixedBits ∧ s.status.busy = false ∧
      WritesNext s 0x014 0x41701000 (.unit :: []) := ⟨rfl, rfl, rfl, ⟨rfl, rfl⟩⟩

theorem witness_StepRunsLatchedCommand :
    let s := busyWith (loaded Build.bjj [(1, 7)]) 0x02010000
    UnitNext (s [.unit]) [] ∧ (s []).resetHeld = false ∧ (s []).inputs = [] ∧ (s []).status.busy = true ∧
      decode (s []).cmdl = .ok (.fmov 0 1) ∧ (Instr.fmov 0 1).wellFormed = true :=
  ⟨⟨rfl, rfl⟩, rfl, rfl, rfl, rfl, rfl⟩

theorem witness_IllegalCommandEnds :
    let s := busyWith (loaded Build.bjj [(1, 7)]) 0x00000000 [.unit]
    UnitNext s [] ∧ s.status.busy = true ∧ decode s.cmdl = .error .unassignedOpcode ∧
      (Instr.ell2 3 0).wellFormed = false := ⟨⟨rfl, rfl⟩, rfl, rfl, rfl⟩

theorem witness_CommandAccepted :
    let s := { loaded Build.bjj [] with
      wbuf := State.reset.wbuf.set 7 0x30644e72, inputs := [.hostWrite ⟨0x014, 4⟩ 0xFFFFFFFF] }
    (WritesNext s 0x014 0xFFFFFFFF [] ∧ s.status.busy = false ∧ s.wbuf[7] = 0x30644e72) ∧
      (busyWith (loaded Build.bjj []) 0xFFFFFFFF []).status.busy = true ∧
      decode (busyWith (loaded Build.bjj []) 0xFFFFFFFF []).cmdl = .error .unassignedOpcode :=
  ⟨⟨⟨rfl, rfl⟩, rfl, rfl⟩, rfl, rfl⟩

/-- A BUSY state of the invariant, the reset state, an accepted word, and a step that changes nothing in CMD: the write that
is dropped. -/
theorem witness_CmdReadsLastAccepted :
    let s := busyWith (loaded Build.t97 [(1, 96)]) 0x02010000 [.unit]
    let u := { loaded Build.t97 [] with inputs := [.hostWrite ⟨0x014, 4⟩ 0x01000000] }
    let d := { s with inputs := [.hostWrite ⟨0x014, 4⟩ 0x01000000] }
    (s.Inv ∧ s.status.busy = true) ∧ AtReset State.reset ∧ (WritesNext u 0x014 0x01000000 [] ∧ u.status.busy = false) ∧
      ∃ t, step d = .next t ∧ ¬ AtReset t ∧ ∀ w rest, WritesNext d 0x014 w rest → d.status.busy = true :=
  ⟨⟨busyInv, rfl⟩, ⟨by decide, by decide, rfl, rfl, rfl, rfl, rfl⟩, ⟨⟨rfl, rfl⟩, rfl⟩, _, rfl,
    fun h => absurd h.2.2.1 (by decide), fun _ _ _ => rfl⟩

theorem witness_CommandCollision :
    let s := busyWith (loaded Build.bjj [(2, 0)]) 0x10322000 [.hostWrite ⟨0x014, 4⟩ 0x10422000]
    let t := { collide (loaded Build.bjj []) with inputs := [.hostWrite ⟨0x010, 4⟩ 8] }
    (WritesNext s 0x014 0x10422000 [] ∧ s.status.busy = true) ∧
      ∃ u, step t = .next u ∧ t.status.coll = true ∧ u.status.coll = false :=
  ⟨⟨⟨rfl, rfl⟩, rfl⟩, _, rfl, rfl, by decide +kernel⟩

theorem witness_ErrorAcknowledged :
    let s := { raise .divByZero 0 (loaded Build.bjj []) with inputs := [.hostWrite ⟨0x010, 4⟩ 6] }
    WritesNext s 0x010 6 [] ∧ s.status.err = true := ⟨⟨rfl, rfl⟩, rfl⟩

/-- An error of one command at stage 0; test_h2c_stages shows the other stages. -/
theorem witness_ErrorsArePrecise :
    let s := loaded Build.t97 [(1, 0)]
    ∃ t, s.status.err = false ∧ exec (.finv 2 1) s = .next t ∧ t.status.err = true :=
  ⟨_, rfl, exec_stateOf _ _, by decide +kernel⟩

theorem witness_ErrorTable :
    let s := loaded Build.t97 [(8, 0), (9, 0)]
    ∃ t, s.status.err = false ∧ exec (.m2e 10 8) s = .next t ∧ t.status.err = true :=
  ⟨_, rfl, exec_stateOf _ _, by decide +kernel⟩

theorem witness_UninitialisedOperand :
    (Instr.m2e 4 2).wellFormed = true ∧ (3 : Reg) ∈ sources (.m2e 4 2) ∧
      (loaded Build.t97 [(2, 15)]).isValid 3 = false := by decide +kernel

/-- The frame's flags each change under their own command, a request under H2F, and a byte of a register not written
stands at offset 0x5FF. -/
theorem witness_CommandFrame :
    let s := loaded Build.t97 [(1, 3), (2, 3), (3, 5), (4, 4)]
    (∃ t, exec (.feq 1 2) s = .next t ∧ t.status.eq ≠ s.status.eq) ∧
    (∃ t, exec (.fsqrt 0 3) s = .next t ∧ t.status.nr ≠ s.status.nr) ∧
    (∃ t, exec (.ell2 6 4) s = .next t ∧ t.status.br ≠ s.status.br) ∧
    (∃ t, exec (.h2f 6 1 2) { s with portLimit := some 0 } = .next t ∧ t.requests ≠ s.requests) ∧
    windowReg (0x5FF - 0x5FF % 4) = .freg 15 7 ∧ (15 : Reg) ∉ destinations (.ell2 6 4) :=
  ⟨⟨_, exec_stateOf _ _, by decide +kernel⟩, ⟨_, exec_stateOf _ _, by decide +kernel⟩,
    ⟨_, exec_stateOf _ _, by decide +kernel⟩, ⟨_, exec_stateOf _ _, by decide +kernel⟩, rfl, by decide⟩

/-- `good` has the right fixed bits; `bad` has the opcode alone right. -/
def HasBothWords (op : BitVec 8) (mask fixed good bad : Word) : Prop :=
  good &&& mask = fixed ∧ opField bad = op ∧ bad &&& mask ≠ fixed

/-- The two premises of `EncodedAs`, for each opcode. -/
theorem witness_EncodedAs :
    HasBothWords 0x01 0xFF0FFFFF 0x01000000 0x01F00000 0x01010000 ∧
    HasBothWords 0x02 0xFF00FFFF 0x02000000 0x02FF0000 0x02010001 ∧
    HasBothWords 0x10 0xFF000FFF 0x10000000 0x10FFF000 0x10312001 ∧
    HasBothWords 0x11 0xFF000FFF 0x11000000 0x11FFF000 0x11312800 ∧
    HasBothWords 0x12 0xFF000FFF 0x12000000 0x12FFF000 0x12312010 ∧
    HasBothWords 0x13 0xFF00FFFF 0x13000000 0x13FF0000 0x13211000 ∧
    HasBothWords 0x14 0xFF00FFFF 0x14000000 0x14FF0000 0x14218000 ∧
    HasBothWords 0x15 0xFF000FFF 0x15000000 0x15FFF000 0x15312001 ∧
    HasBothWords 0x16 0xFFF00FFF 0x16000000 0x160FF000 0x16112000 ∧
    HasBothWords 0x20 0xFF00FFFF 0x20000000 0x20FF0000 0x20211000 ∧
    HasBothWords 0x30 0xFF10FFFF 0x30000000 0x30EF0000 0x30100000 ∧
    HasBothWords 0x38 0xFF11FFFF 0x38000000 0x38EE0000 0x38410000 ∧
    HasBothWords 0x40 0xFF100FFF 0x40000000 0x40EFF000 0x40FFF000 ∧
    HasBothWords 0x41 0xFF100FFF 0x41000000 0x41EFF000 0x41501000 := by
  unfold HasBothWords
  refine ⟨?_, ?_, ?_, ?_, ?_, ?_, ?_, ?_, ?_, ?_, ?_, ?_, ?_, ?_⟩ <;> decide

theorem witness_FldLoadsCanonicalValue :
    let s (v : Nat) := { loaded Build.bjj [] with wsnap := toElem v }
    (s (Build.bjj.p - 1)).wsnap.toNat < Build.bjj.p ∧ Build.bjj.p ≤ (s Build.bjj.p).wsnap.toNat := by decide +kernel

theorem witness_FmovCopies :
    (loaded Build.bjj [(1, 7)]).isValid 1 = true ∧ (loaded Build.bjj [(1, 7)]).isValid 0 = false := by decide +kernel

/-- Operands on both sides of each case: a sum that wraps and a difference that borrows, and ones that do not; zero and
not zero; and one that is not valid. -/
theorem witness_AddSubMulNegResults :
    let s := loaded Build.t97 [(1, 96), (2, 1), (3, 0)]
    (s.isValid 1 = true ∧ s.isValid 2 = true ∧ s.isValid 3 = true) ∧
    (s.elem 1 < s.build.p ∧ s.elem 2 < s.build.p ∧ s.elem 3 < s.build.p) ∧
    s.build.p ≤ s.elem 1 + s.elem 2 ∧ ¬ s.build.p ≤ s.elem 1 + s.elem 3 ∧ s.elem 3 < s.elem 2 ∧
    ¬ s.elem 2 < s.elem 2 ∧ s.elem 3 = 0 ∧ s.isValid 0 = false := by decide +kernel

theorem witness_FinvWritesTheInverse :
    let s := loaded Build.t97 [(1, 96), (2, 0)]
    s.isValid 1 = true ∧ s.elem 1 < s.build.p ∧ s.elem 1 ≠ 0 ∧ s.isValid 2 = true ∧ s.elem 2 = 0 ∧
      s.isValid 0 = false := by decide +kernel

theorem witness_FpowWritesThePower :
    let s := loaded Build.t97 [(1, 0), (2, 96)]
    s.isValid 1 = true ∧ s.isValid 2 = true ∧ s.isValid 0 = false := by decide +kernel

theorem witness_FeqSetsEq :
    let s := loaded Build.t97 [(1, 3), (2, 3), (3, 4)]
    s.isValid 1 = true ∧ s.isValid 2 = true ∧ s.isValid 3 = true ∧ s.elem 1 = s.elem 2 ∧ s.elem 1 ≠ s.elem 3 ∧
      s.isValid 0 = false := by decide +kernel

/-- A square (22 with root 33, 95_test_vectors.md section 2.1), a non-square (5), an invalid operand. -/
theorem witness_FsqrtFindsTheSmallRoot :
    let s := loaded Build.t97 [(1, 22), (2, 5), (3, 1)]
    s.isValid 1 = true ∧ s.elem 1 < s.build.p ∧ 33 ≤ (s.build.p - 1) / 2 ∧ 33 * 33 % s.build.p = s.elem 1 ∧
      s.isValid 2 = true ∧ s.elem 2 < s.build.p ∧ (∀ y, y < 97 → y * y % 97 ≠ s.elem 2) ∧ s.isValid 0 = false := by
  decide +kernel

/-- Each way the map can go: T97 at 1 (odd root of the first branch) and at 4 (even root of the second), T11 at 8 (root 0
of the first branch), T19' at 3 (no root in either). -/
theorem witness_Ell2MapsByBranch :
    (let b := Build.t97;
      (loaded b [(0, 1)]).isValid 0 = true ∧ (1 + b.z * (1 * 1)) % b.p = 6 ∧ (15 * 6 + b.J) % b.p = 0 ∧
        55 * 55 % b.p = g b.toParams 15 ∧ 55 % 2 = 1) ∧
    (let b := Build.t97;
      (loaded b [(0, 4)]).isValid 0 = true ∧ (1 + b.z * (4 * 4)) % b.p = 81 ∧ (55 * 81 + b.J) % b.p = 0 ∧
        (35 + 55 + b.J) % b.p = 0 ∧ (∀ y, y < 97 → y * y % 97 ≠ g b.toParams 55) ∧
        50 * 50 % b.p = g b.toParams 35 ∧ 50 % 2 = 0) ∧
    (let b := Build.t11;
      (loaded b [(0, 8)]).isValid 0 = true ∧ (1 + b.z * (8 * 8)) % b.p = 0 ∧ (3 * b.z + b.J) % b.p = 0 ∧
        0 * 0 % b.p = g b.toParams 3) ∧
    (let b := Build.t19';
      (loaded b [(0, 3)]).isValid 0 = true ∧ (1 + b.z * (3 * 3)) % b.p = 0 ∧ (6 * b.z + b.J) % b.p = 0 ∧
        (6 + 6 + b.J) % b.p = 0 ∧ ∀ y, y < 19 → y * y % 19 ≠ g b.toParams 6) := by decide +kernel

theorem witness_Ell2CompletesOnTheCurve :
    let s := loaded Build.t97 [(0, 58)]
    (2 : Reg).val % 2 = 0 ∧ s.isValid 0 = true ∧ (1 + s.build.z * (s.elem 0 * s.elem 0)) % s.build.p ≠ 0 := by
  decide +kernel

theorem witness_Ell2FailsOnlyExceptionally : ell2Map Build.t19'.toParams 16 = none := by decide +kernel

theorem witness_Ell2EvenInItsInput : 0 < Build.t97.p ∧ 96 < Build.t97.p := by decide

/-- `-J` is a square in T19 (its odd root is 15) and none in T97. -/
theorem witness_Ell2AtZero :
    15 < Build.t19.p ∧ 15 * 15 % Build.t19.p = Build.t19.p - Build.t19.J ∧ 15 % 2 = 1 ∧
      ∀ y, y < 97 → y * y % 97 ≠ Build.t97.p - Build.t97.J := by decide +kernel

theorem witness_M2eConverts :
    let s := loaded Build.t97 [(2, 15), (3, 55), (4, 15), (5, 0), (6, 96), (7, 55), (9, 1)]
    (s.isValid 2 = true ∧ s.isValid 3 = true ∧ s.elem 2 < s.build.p ∧ s.elem 3 < s.build.p ∧ s.elem 3 ≠ 0 ∧
      s.elem 2 ≠ s.build.p - 1) ∧
    (s.isValid 4 = true ∧ s.isValid 5 = true ∧ s.elem 5 = 0) ∧
    (s.isValid 6 = true ∧ s.isValid 7 = true ∧ s.elem 7 ≠ 0 ∧ s.elem 6 = s.build.p - 1) ∧
    (s.isValid 8 = false ∧ s.isValid 9 = true) := by decide +kernel

/-- A row of 95_test_vectors.md section 5: (15, 55) goes to (62, 13). -/
theorem witness_M2eLandsOnEdwardsCurve :
    15 < Build.t97.p ∧ 55 < Build.t97.p ∧ 55 * 55 % Build.t97.p = g Build.t97.toParams 15 ∧
      montToEd Build.t97.p ⟨15, 55⟩ = some ⟨62, 13⟩ := by decide +kernel

theorem witness_H2fOutcome :
    let s := loaded Build.t97 [(0, 42), (1, 26)]
    (14 : Reg).val % 2 = 0 ∧ s.isValid 0 = true ∧ s.isValid 1 = true ∧ s.portLimit = none ∧ s.isValid 2 = false := by
  decide +kernel

theorem witness_H2cOutcome :
    let s := loaded Build.bjj [(0, 42), (15, 123)]
    (0 : Reg).val % 2 = 0 ∧ s.isValid 0 = true ∧ s.isValid 15 = true ∧ s.portLimit = none ∧ s.isValid 2 = false := by
  decide +kernel

/-- Every way H2C can fail, in a build and over ports that make it fail so: ERRCODE and ERRSTAGE as R251 and R225 pair
them. -/
theorem test_h2c_stages :
    let run (b : Build) (ports : Ports) := statusAfter (h2cOver ports 2 0 1 (loaded b [(0, 42 % b.p), (1, 26 % b.p)]))
    let answers (first second : Elem) : Ports := ⟨fun _ b _ => if b = 0 then first else second, testAdd⟩
    let stopsAt (P : Point) : Ports := ⟨testHash, fun A B => if A = P ∧ B = P then (0, 97) else testAdd A B⟩
    [run Build.t97 (answers 97 0), run Build.t97 badHashPorts, run Build.t19' (answers 3 0),
      run Build.t19' (answers 1 3), run Build.t97 (answers 0 0), run Build.t97 (answers 1 0),
      run Build.t97 badAddPorts, run Build.t97 (stopsAt ⟨76, 68⟩), run Build.t97 (stopsAt ⟨52, 41⟩),
      run Build.t97 (stopsAt ⟨46, 59⟩)] =
    [0x00010706, 0x00020706, 0x00030406, 0x00040406, 0x00050506, 0x00060506, 0x00070706, 0x00080706, 0x00090706,
      0x000A0706].map fun w => some (BitVec.ofNat 32 w) := by decide +kernel

theorem witness_H2cDependsOnOperandsOnly :
    let s1 := loaded Build.t97 [(0, 42), (1, 26)]
    let s2 := loaded Build.t97 [(4, 26), (7, 42)]
    ∃ t1 t2, s1.build = s2.build ∧ s1.portLimit = none ∧ s2.portLimit = none ∧ s1.status.err = false ∧
      s2.status.err = false ∧ s1.isValid 0 = true ∧ s1.isValid 1 = true ∧ s2.isValid 7 = true ∧ s2.isValid 4 = true ∧
      s1.elem 0 = s2.elem 7 ∧ s1.elem 1 = s2.elem 4 ∧ exec (.h2c 2 0 1) s1 = .next t1 ∧
      exec (.h2c 10 7 4) s2 = .next t2 :=
  ⟨_, _, rfl, rfl, rfl, rfl, rfl, by decide +kernel, by decide +kernel, by decide +kernel, by decide +kernel,
    by decide +kernel, by decide +kernel, exec_stateOf _ _, exec_stateOf _ _⟩

theorem witness_SilentPortHangsTheUnit :
    let s := { busyWith (loaded Build.t97 [(0, 42), (1, 26)]) 0x41201000 [.unit, .unit] with portLimit := some 0 }
    s.isValid 0 = true ∧ s.isValid 1 = true ∧ s.portLimit = some 0 ∧ s.requests = [] ∧ s.resetHeld = false ∧
      s.status.busy = true ∧ s.cmdl = encode (.h2c 2 0 1) ∧ s.inputs = List.replicate (1 + 1) .unit := by decide +kernel

/-- Silence at each of H2C's six requests (section 6.2 lists them), and none: what a unit step leaves, and that the
command then stays BUSY with one request more on record than are answered. -/
theorem test_ports_fall_silent :
    let s (n : Nat) := { busyWith (loaded Build.t97 [(0, 42), (1, 26)]) 0x41201000 [] with portLimit := some n }
    ((List.range 7).map fun n =>
      (after (h2cOver testPorts 2 0 1 (s n))).map fun t => (t.status.busy, t.requests.length, t.isValid 2)) =
    [some (true, 1, false), some (true, 2, false), some (true, 3, false), some (true, 4, false), some (true, 5, false),
      some (true, 6, false), some (false, 6, true)] ∧
    ∀ n < 7, after (h2cOver testPorts 2 0 1 (s n)) = some (underLimit n (afterH2c testPorts (s n) 2 42 26) (s n)) := by
  decide +kernel

/-- A command that waited at its fourth request goes on when the ports answer again. -/
theorem test_ports_answer_again :
    let s := { busyWith (loaded Build.t97 [(0, 42), (1, 26)]) 0x41201000 [] with portLimit := some 3 }
    let t := stateOf (h2cOver testPorts 2 0 1 s)
    outstanding t = some (.edadd ⟨76, 68⟩ ⟨76, 68⟩) ∧ stateOf (h2cOver testPorts 2 0 1 t) = t ∧
      regsAfter (h2cOver testPorts 2 0 1 { t with portLimit := none }) [2, 3] = some [some 46, some 38] := by
  decide +kernel

/-- The host's next write, for the statements about writes. -/
def writing (off : Nat) (v : Word) : State :=
  busyWith (loaded Build.bjj [(1, 7)]) 0x10312000 [.hostWrite ⟨off, 4⟩ v]

theorem witness_StatusWriteClears :
    WritesNext (writing 0x010 0xE) 0x010 0xE [] ∧
      ReadsNext { State.reset with inputs := [.hostRead ⟨0x010, 4⟩] } 0x010 [] := ⟨⟨rfl, rfl⟩, rfl, rfl⟩

theorem witness_CtrlWrite :
    WritesNext (writing 0x00C 1) 0x00C 1 [] ∧ (1 : Word)[1] = false ∧ WritesNext (writing 0x00C 2) 0x00C 2 [] ∧
      (2 : Word)[1] = true := ⟨⟨rfl, rfl⟩, rfl, ⟨rfl, rfl⟩, rfl⟩

theorem witness_WbufReadsBack :
    WritesNext (writing 0x05C 0xFFFFFFFF) (0x040 + 4 * (7 : Fin 8).val) 0xFFFFFFFF [] ∧ (0 : Fin 8) ≠ 7 :=
  ⟨⟨rfl, rfl⟩, by decide⟩

/-- The edges of the ranges of R71 that ignore a write. -/
theorem witness_ReadOnlyAndReserved :
    ∀ off ∈ [0x000, 0x008, 0x018, 0x01C, 0x03C, 0x060, 0x0FC, 0x100, 0x15C, 0x160, 0x400, 0x5FC, 0x600, 0xFFC],
      (writing off 0xFFFFFFFF).resetHeld = false ∧ (writing off 0xFFFFFFFF).inputs = [.hostWrite ⟨Build.bjj.base + off, 4⟩ 0xFFFFFFFF] ∧ off < 4096 ∧ off % 4 = 0 ∧
        off ≠ 0x00C ∧ off ≠ 0x010 ∧ off ≠ 0x014 ∧ (off < 0x040 ∨ 0x060 ≤ off) := by decide +kernel

/-- The reserved offsets at the edges of their ranges, and a read of one. -/
theorem witness_ReadsHaveNoSideEffect :
    ReadsNext { State.reset with inputs := [.hostRead ⟨0xFFC, 4⟩] } 0xFFC [] ∧
      ∀ off ∈ [0x01C, 0x03C, 0x060, 0x0FC, 0x160, 0x3FC, 0x600, 0xFFC], off < 4096 ∧ off % 4 = 0 ∧
        ((0x01C ≤ off ∧ off < 0x040) ∨ (0x060 ≤ off ∧ off < 0x100) ∨ (0x160 ≤ off ∧ off < 0x400) ∨ 0x600 ≤ off) :=
  ⟨⟨rfl, rfl⟩, by decide⟩

/-- One access of each kind: too narrow, misaligned, below the window, across its end. -/
theorem witness_UnsupportedAccessRefused :
    let base := high.base
    (⟨base + 0x010, 2⟩ : Access).bytes ≠ 4 ∧ ((⟨base + 0x012, 4⟩ : Access).addr - base) % 4 ≠ 0 ∧
      (⟨base - 4, 4⟩ : Access).addr < base ∧ base + 4096 < (⟨base + 0xFFE, 4⟩ : Access).addr + 4 := by decide

theorem witness_ParamInfoFields : (loaded Build.bjj []).build = Build.bjj := rfl

/-- A canonical state of profile BJJ that holds `p - 1`, and the length of its modulus. -/
theorem witness_ValueWindows :
    let s := loaded Build.bjj [(6, Build.bjj.p - 1)]
    s.build = Build.bjj ∧ s.Canonical ∧ s.build.p < 2 ^ 254 :=
  ⟨rfl, by unfold State.Canonical; decide +kernel, by decide +kernel⟩

theorem witness_InterruptLevel :
    WritesNext { finish (loaded Build.bjj []) with irqEn := true, inputs := [.hostWrite ⟨0x010, 4⟩ 0xE] } 0x010 0xE [] ∧
      (0xE : Word)[1] = true ∧ (0xE : Word)[3] = true := ⟨⟨rfl, rfl⟩, rfl, rfl⟩

/-- The invariant holds in a state that shows an error with the interrupt enabled. -/
theorem witness_InterruptLevel_error :
    let s := { raise .divByZero 0 (loaded Build.bjj []) with irqEn := true }
    s.Inv ∧ s.status.err = true ∧ s.irqEn = true := by
  refine ⟨⟨?_, ?_, ⟨?_, ?_, ?_, ?_, ?_⟩, ?_, ?_, ?_⟩, rfl, rfl⟩
  · unfold State.Canonical; decide +kernel
  · unfold State.InvalidIsZero; decide +kernel
  · decide +kernel
  · decide +kernel
  · decide +kernel
  · decide +kernel
  · decide +kernel
  · decide +kernel
  · intro r hr; cases hr
  · intro h; cases h

theorem witness_IdempotentWrites :
    let s := loaded high [(1, 7)]
    (∃ t u, hostWrite ⟨s.build.base + 0x010, 4⟩ 0xE s = .next t ∧ hostWrite ⟨s.build.base + 0x010, 4⟩ 0xE t = .next u) ∧
    (∃ t u, (1 : Word)[1] = false ∧ hostWrite ⟨s.build.base + 0x00C, 4⟩ 1 s = .next t ∧
      hostWrite ⟨s.build.base + 0x00C, 4⟩ 1 t = .next u) ∧
    (∃ t u, hostWrite ⟨s.build.base + 0x05C, 4⟩ 9 s = .next t ∧ hostWrite ⟨s.build.base + 0x05C, 4⟩ 9 t = .next u) :=
  ⟨⟨_, _, rfl, rfl⟩, ⟨_, _, rfl, rfl, rfl⟩, ⟨_, _, rfl, rfl⟩⟩

/-- A BUSY state, and one with the reset input asserted. -/
theorem witness_StepKeepsInvariant :
    (let s := busyWith (loaded Build.t97 [(1, 96)]) 0x02010000 [.unit]; s.Inv ∧ ∃ t, step s = .next t) ∧
    (let s := setResetInput true (loaded Build.t97 [(1, 96)])
     s.resetHeld = true ∧ s = resetCore s ∧ ∃ t, step s = .next t) :=
  ⟨⟨busyInv, step_unit_next rfl rfl⟩, rfl, by decide +kernel, _, rfl⟩

theorem witness_ConstantsNeverChange :
    let s := busyWith (loaded Build.t97 [(1, 96)]) 0x02010000 [.unit]
    (∃ t, step s = .next t) ∧ windowReg 0x000 = .id ∧ windowReg 0x004 = .version ∧ windowReg 0x008 = .paramInfo ∧
      windowReg 0x11C = .pWord 7 ∧ windowReg 0x120 = .jWord 0 ∧ windowReg 0x15C = .zWord 7 :=
  ⟨step_unit_next rfl rfl, rfl, rfl, rfl, rfl, rfl, rfl⟩

/-- A write that touches no register, an idle unit, a unit that waits for a port, one that ends with an error. -/
theorem witness_RegistersChangeOnlyAtCommits :
    let s := { loaded Build.t97 [(1, 96)] with inputs := [.hostWrite ⟨0x00C, 4⟩ 1] }
    let busy := busyWith (loaded Build.t97 [(1, 96)]) 0x02020000 [.unit]
    let waiting := { busyWith (loaded Build.t97 [(1, 96)]) 0x40211000 [] with portLimit := some 0 }
    (∃ t, s.resetHeld = false ∧ s.inputs = .hostWrite ⟨0x00C, 4⟩ 1 :: [] ∧
      touchesRegisters s.build.toParams (.hostWrite ⟨0x00C, 4⟩ 1) = false ∧ step s = .next t) ∧
    (∃ t, s.status.busy = false ∧ unitStep s = .next t) ∧
    (∃ t, unitStep waiting = .next t ∧ t.status.busy = true) ∧
    (∃ t, unitStep busy = .next t ∧ busy.isValid 1 = true ∧ busy.status.err = false ∧ t.status.err = true) ∧
    UnitNext busy [] ∧ waiting.resetHeld = false ∧ waiting.inputs = [] :=
  ⟨⟨_, rfl, rfl, rfl, rfl⟩, ⟨_, rfl, rfl⟩, ⟨_, unitStep_stateOf _, by decide +kernel⟩,
    ⟨_, unitStep_stateOf _, by decide +kernel, rfl, by decide +kernel⟩, ⟨rfl, rfl⟩, rfl, rfl⟩

theorem witness_WbufWriteCommutesWithUnit :
    (busyWith (loaded Build.t97 []) 0x01200000 []).status.busy = true := rfl

theorem witness_CommandsComplete :
    let s := busyWith (loaded high [(1, 7)]) 0x02010000 [.hostRead ⟨0x40000010, 4⟩, .unit, .hostWrite ⟨0x40000014, 4⟩ 0]
    s.portLimit = none ∧ ∀ i ∈ s.inputs, i.supported s.build.toParams = true ∧ ∀ l, i ≠ .ports l := by
  refine ⟨rfl, fun i hi => ?_⟩
  have : i = .hostRead ⟨0x40000010, 4⟩ ∨ i = .unit ∨ i = .hostWrite ⟨0x40000014, 4⟩ 0 := by
    simpa [busyWith] using hi
  rcases this with rfl | rfl | rfl
  · exact ⟨by decide +kernel, by simp⟩
  · exact ⟨rfl, by simp⟩
  · exact ⟨by decide +kernel, by simp⟩

end Sys2Proof.Tests
end

section
/-! PROOFS. What the window shows and what each step does, once for every later proof. -/

namespace Sys2Proof.Proofs

open Sys2Proof.Machine Sys2Proof.Laws Sys2Proof.Spec

/-! ### The reset values -/

/-- A reset core has every value of 10_state.md R54. -/
theorem atReset_resetCore (s : State) : AtReset (resetCore s) :=
  ⟨fun r => by simp [State.elem, State.isValid, State.reset], fun k => by simp [State.reset], rfl, rfl, rfl, rfl, rfl⟩

/-! ### What the window shows -/

@[simp] theorem readWord_wbuf (s : State) (k : Fin 8) : readWord s (0x040 + 4 * k.val) = s.wbuf[k] := by
  rw [readWord, windowReg_wbuf, WindowReg.read]

@[simp] theorem readWord_pWord (s : State) (k : Fin 8) :
    readWord s (0x100 + 4 * k.val) = wordOf (toElem s.build.p) k := by
  rw [readWord, windowReg_pWord, WindowReg.read]

@[simp] theorem readWord_jWord (s : State) (k : Fin 8) :
    readWord s (0x120 + 4 * k.val) = wordOf (toElem s.build.J) k := by
  rw [readWord, windowReg_jWord, WindowReg.read]

@[simp] theorem readWord_zWord (s : State) (k : Fin 8) :
    readWord s (0x140 + 4 * k.val) = wordOf (toElem s.build.z) k := by
  rw [readWord, windowReg_zWord, WindowReg.read]

@[simp] theorem readWord_freg (s : State) (r : Reg) (k : Fin 8) :
    readWord s (0x400 + 0x20 * r.val + 4 * k.val) = wordOf s.freg[r] k := by
  rw [readWord, windowReg_freg, WindowReg.read]

/-- A place of the window other than STATUS and VALIDR shows a constant, WBUF, CMD, IRQ_EN or a field register. -/
theorem read_congr {s t : State} {w : WindowReg} (hbuild : t.build = s.build) (hwbuf : t.wbuf = s.wbuf)
    (hcmd : t.cmd = s.cmd) (hirq : t.irqEn = s.irqEn) (hstatus : w ≠ .status) (hvalidr : w ≠ .validr)
    (hfreg : ∀ r k, w = .freg r k → t.freg[r] = s.freg[r]) : w.read t = w.read s := by
  cases w with
  | freg r k => simp only [WindowReg.read, hfreg r k rfl]
  | status => exact absurd rfl hstatus
  | validr => exact absurd rfl hvalidr
  | _ => simp only [WindowReg.read, paramInfoWord, ctrlWord, hbuild, hwbuf, hcmd, hirq]

/-- The inputs still to come show nowhere in the window. -/
theorem readWord_withInputs (s : State) (inputs : List Input) (off : Nat) :
    readWord { s with inputs := inputs } off = readWord s off := by
  unfold readWord
  cases windowReg off <;> rfl

/-- The identity and parameter words depend on the build alone. -/
theorem readWord_constant {s t : State} {off : Nat} (h : IsConstant off) (hbuild : t.build = s.build) :
    readWord t off = readWord s off := by
  unfold readWord
  obtain e | e | e | ⟨k, e | e | e⟩ := h <;> rw [e] <;> simp only [WindowReg.read, paramInfoWord, hbuild]

/-- Eight places that show the words of `v` in order add up to `v` (R76). -/
theorem sum_readWord {s : State} {base : Nat} {v : Elem}
    (h : ∀ k : Fin 8, readWord s (base + 4 * k.val) = wordOf v k) :
    ((List.finRange 8).map fun k : Fin 8 => (readWord s (base + 4 * k.val)).toNat * 2 ^ (32 * k.val)).sum =
      v.toNat := by
  simp only [h]
  exact sum_wordOf v

/-! ### What a host write does -/

/-- The offset 0x00C alone is CTRL (R71). -/
theorem offset_of_ctrl {off : Nat} (h4 : off % 4 = 0) (h : windowReg off = .ctrl) : off = 0x00C := by
  simp only [windowReg, ite_eq_iff, reduceCtorEq, and_false, and_true, false_or, or_false] at h
  omega

/-- The offset 0x014 alone is CMD (R71). -/
theorem offset_of_cmd {off : Nat} (h4 : off % 4 = 0) (h : windowReg off = .cmd) : off = 0x014 := by
  simp only [windowReg, ite_eq_iff, reduceCtorEq, and_false, and_true, false_or, or_false] at h
  omega

theorem writeCmd_idle {s : State} (h : s.status.busy = false) (w : Word) : writeCmd w s = accept w s := by
  simp [writeCmd, h]

theorem writeCmd_busy {s : State} (h : s.status.busy = true) (w : Word) : writeCmd w s = collide s := by
  simp [writeCmd, h]

theorem writeCtrl_reset {v : Word} (h : v[1] = true) (s : State) : writeCtrl v s = resetCore s := by
  simp [writeCtrl, h]

theorem writeCtrl_enable {v : Word} (h : v[1] = false) (s : State) : writeCtrl v s = { s with irqEn := v[0] } := by
  simp [writeCtrl, h]

/-- The state a write of `v` at offset `off` leaves, by the register that stands there. -/
inductive WriteEffect (s : State) (off : Nat) (v : Word) (t : State) : Prop
  | accepts (hw : windowReg off = .cmd) (hb : s.status.busy = false) (ht : t = accept v s)
  | collides (hw : windowReg off = .cmd) (hb : s.status.busy = true) (ht : t = collide s)
  | acknowledges (hw : windowReg off = .status) (ht : t = acknowledge v s)
  | resets (hw : windowReg off = .ctrl) (hv : v[1] = true) (ht : t = resetCore s)
  | enables (hw : windowReg off = .ctrl) (hv : v[1] = false) (ht : t = { s with irqEn := v[0] })
  | stores (k : Fin 8) (hw : windowReg off = .wbuf k) (ht : t = writeWbuf k v s)
  | ignored (ht : t = s)

theorem writeWord_effect (s : State) (off : Nat) (v : Word) : WriteEffect s off v (writeWord s off v) := by
  unfold writeWord
  cases hw : windowReg off with
  | cmd =>
    cases hb : s.status.busy with
    | true => exact .collides hw hb (writeCmd_busy hb v)
    | false => exact .accepts hw hb (writeCmd_idle hb v)
  | ctrl =>
    cases hv : v[1] with
    | true => exact .resets hw hv (writeCtrl_reset hv s)
    | false => exact .enables hw hv (writeCtrl_enable hv s)
  | status => exact .acknowledges hw rfl
  | wbuf k => exact .stores k hw rfl
  | _ => exact .ignored rfl

/-! ### One supported access of the host, with the reset input released -/

theorem accessOffset_at (c : Params) {off : Nat} (hoff : off < 4096) (h4 : off % 4 = 0) :
    accessOffset c ⟨c.base + off, 4⟩ = .ok off := (accessOffset_ok_iff _ _ _).2 ⟨rfl, hoff, h4⟩

theorem step_writesNext {s : State} {off : Nat} {v : Word} {rest : List Input} (h : WritesNext s off v rest)
    (hoff : off < 4096) (h4 : off % 4 = 0) : step s = .next (writeWord { s with inputs := rest } off v) := by
  obtain ⟨hr, hi⟩ := h
  rw [step_cons_released hr hi]
  simp [takeInput, hostWrite, accessOffset_at _ hoff h4, hr]

theorem step_readsNext {s : State} {off : Nat} {rest : List Input} (h : ReadsNext s off rest)
    (hoff : off < 4096) (h4 : off % 4 = 0) :
    step s = .next { s with inputs := rest, rdata := readWord s off } := by
  obtain ⟨hr, hi⟩ := h
  rw [step_cons_released hr hi]
  simp only [takeInput, hostRead, accessOffset_at _ hoff h4, readWord_withInputs]

theorem step_writesCtrl {s : State} {v : Word} {rest : List Input} (h : WritesNext s 0x00C v rest) :
    step s = .next (writeCtrl v { s with inputs := rest }) := step_writesNext h (by decide) (by decide)

theorem step_writesStatus {s : State} {v : Word} {rest : List Input} (h : WritesNext s 0x010 v rest) :
    step s = .next (acknowledge v { s with inputs := rest }) := step_writesNext h (by decide) (by decide)

theorem step_writesCmd {s : State} {w : Word} {rest : List Input} (h : WritesNext s 0x014 w rest) :
    step s = .next (writeCmd w { s with inputs := rest }) := step_writesNext h (by decide) (by decide)

theorem step_writesCmd_idle {s : State} {w : Word} {rest : List Input} (h : WritesNext s 0x014 w rest)
    (hb : s.status.busy = false) : step s = .next (accept w { s with inputs := rest }) := by
  rw [step_writesCmd h, writeCmd_idle (s := { s with inputs := rest }) hb]

theorem step_writesCmd_busy {s : State} {w : Word} {rest : List Input} (h : WritesNext s 0x014 w rest)
    (hb : s.status.busy = true) : step s = .next (collide { s with inputs := rest }) := by
  rw [step_writesCmd h, writeCmd_busy (s := { s with inputs := rest }) hb]

theorem step_writesWbuf {s : State} {k : Fin 8} {v : Word} {rest : List Input}
    (h : WritesNext s (0x040 + 4 * k.val) v rest) : step s = .next (writeWbuf k v { s with inputs := rest }) := by
  rw [step_writesNext h (by omega) (by omega), writeWord, windowReg_wbuf, WindowReg.write]

/-- Only CTRL, STATUS, CMD and WBUF can be written (R73, R74). -/
theorem readOnly_of_offset {off : Nat} (h : off < 4096 ∧ off % 4 = 0 ∧ off ≠ 0x00C ∧ off ≠ 0x010 ∧ off ≠ 0x014 ∧
    (off < 0x040 ∨ 0x060 ≤ off)) : ReadOnly off := by
  obtain ⟨hoff, h4, hctrl, hstatus, hcmd, hwbuf⟩ := h
  intro s v rest hw
  rw [step_writesNext hw hoff h4, writeWord, write_readOnly h4 hctrl hstatus hcmd hwbuf]

/-! ### The other steps -/

theorem step_resetInput {s : State} {level : Bool} {rest : List Input} (h : s.inputs = .resetInput level :: rest) :
    step s = .next (setResetInput level { underReset s with inputs := rest }) := by
  rw [step_cons h, takeInput]

theorem step_unitNext {s : State} {rest : List Input} (h : UnitNext s rest) :
    step s = unitStep { s with inputs := rest } := by
  rw [step_cons_released h.1 h.2, takeInput]

/-- What is known of a unit step that answered `t`: the unit is IDLE and nothing changed, or it took one of the endings
of a command. An illegal word ends as every command with an illegal encoding does. -/
theorem unitStep_effect {s t : State} (h : unitStep s = .next t) :
    (s.status.busy = false ∧ t = s) ∨ (s.status.busy = true ∧ ∃ i, Effect i s t) := by
  obtain ⟨hb, e⟩ | ⟨hb, i, -, e⟩ | ⟨hb, -, e⟩ := unitStep_cases s <;> rw [e] at h
  · cases h
    exact .inl ⟨hb, rfl⟩
  · exact .inr ⟨hb, i, exec_effect h⟩
  · cases h
    exact .inr ⟨hb, .fld 0, .raised .illegalCmd 0 s.requests (by decide) (by decide) (Writes.refl _ s) rfl⟩

/-- Every ending of a command is a change of STATUS after writes the command may make, and leaves COLL and the flags as
those writes did. -/
theorem effect_writes {i : Instr} {s t : State} (h : Effect i s t) :
    ∃ u, Writes i s u ∧ t = { u with status := t.status } ∧ t.status.coll = u.status.coll ∧ t.status.eq = u.status.eq ∧
      t.status.nr = u.status.nr ∧ t.status.br = u.status.br := by
  cases h with
  | raised e stage reqs he hs hw ht => exact ⟨_, hw, by rw [ht]; exact ⟨rfl, rfl, rfl, rfl, rfl⟩⟩
  | waits reqs hl hw ht => exact ⟨_, hw, by rw [ht]; exact ⟨rfl, rfl, rfl, rfl, rfl⟩⟩
  | commits u hw ht => exact ⟨u, hw, by rw [ht]; exact ⟨rfl, rfl, rfl, rfl, rfl⟩⟩

end Sys2Proof.Proofs
end

section
/-! PROOFS. Words put together from fields: their bits and bytes, and command words. -/

namespace Sys2Proof.Proofs

open Sys2Proof.Machine Sys2Proof.Laws Sys2Proof.Spec

/-! ### Bits and bytes of a word put together from its fields -/

/-- Dropping the `m` low bits of a concatenation. -/
theorem extractLsb'_append_add {n m start len : Nat} {x : BitVec n} {y : BitVec m} {z : BitVec len}
    (h : x.extractLsb' start len = z) : (x ++ y).extractLsb' (start + m) len = z := by
  rw [BitVec.extractLsb'_append_eq_of_le (Nat.le_add_left m start), Nat.add_sub_cancel, h]

theorem getElem_append_add {n m i : Nat} {x : BitVec n} {y : BitVec m} {b : Bool} {hi : i < n} (h : x[i] = b) :
    (x ++ y)[i + m] = b := by
  simp [BitVec.getElem_append, h]

theorem getElem_append_flagBit {n : Nat} {x : BitVec n} {b : Bool} : (x ++ flagBit b)[0] = b := by
  simp [BitVec.getElem_append, flagBit]

/-- A word laid out in four bytes shows each of them in its lane. -/
theorem extractLsb'_bytes (a b c d : Byte) :
    (a ++ b ++ c ++ d).extractLsb' 0 8 = d ∧ (a ++ b ++ c ++ d).extractLsb' 8 8 = c ∧
      (a ++ b ++ c ++ d).extractLsb' 16 8 = b ∧ (a ++ b ++ c ++ d).extractLsb' 24 8 = a :=
  ⟨BitVec.extractLsb'_append_eq_right, extractLsb'_append_add BitVec.extractLsb'_append_eq_right,
    extractLsb'_append_add (extractLsb'_append_add BitVec.extractLsb'_append_eq_right),
    extractLsb'_append_add (extractLsb'_append_add BitVec.extractLsb'_append_eq_left)⟩

/-- Bit `i` of the number whose binary digits are `bs`, least significant first. -/
theorem foldr_bits_testBit (bs : List Bool) : ∀ i : Nat,
    (bs.foldr (fun (b : Bool) (rest : Nat) => b.toNat + 2 * rest) 0).testBit i = bs.getD i false := by
  induction bs with
  | nil => intro i; simp
  | cons b bs ih =>
    intro i
    rw [List.foldr_cons]
    cases i with
    | zero => cases b <;> simp [Nat.testBit_zero]
    | succ i =>
      have hdiv : (b.toNat + 2 * bs.foldr (fun (b : Bool) (rest : Nat) => b.toNat + 2 * rest) 0) / 2 =
          bs.foldr (fun (b : Bool) (rest : Nat) => b.toNat + 2 * rest) 0 := by
        have := b.toNat_lt
        omega
      rw [Nat.testBit_succ, hdiv, ih]
      rfl

theorem wordOf_toNat (v : Elem) (k : Fin 8) : (wordOf v k).toNat = v.toNat / 2 ^ (32 * k.val) % 2 ^ 32 := by
  rw [wordOf, BitVec.extractLsb'_toNat, Nat.shiftRight_eq_div_pow]

/-- A value below 2 ^ 254 leaves the two top bits of its last word clear. -/
theorem wordOf_topBits {v : Elem} (h : v.toNat < 2 ^ 254) : (wordOf v 7).extractLsb' 30 2 = 0 := by
  apply BitVec.eq_of_toNat_eq
  rw [BitVec.extractLsb'_toNat, wordOf_toNat, Nat.shiftRight_eq_div_pow]
  show v.toNat / 2 ^ 224 % 2 ^ 32 / 2 ^ 30 % 2 ^ 2 = 0
  omega

/-! ### The decoder reads back what the encoder wrote -/

/-- Masking a packed word field by field: the opcode stays, and each register field must vanish under its mask. -/
theorem packFields_and (op : BitVec 8) {rd rs1 rs2 : Reg} {m1 m2 m3 : BitVec 4} (h1 : regBits rd &&& m1 = 0)
    (h2 : regBits rs1 &&& m2 = 0) (h3 : regBits rs2 &&& m3 = 0) :
    (packFields op rd rs1 rs2 &&& (0xFF#8 ++ m1 ++ m2 ++ m3 ++ 0xFFF#12 : BitVec (8 + 4 + 4 + 4 + 12))) =
      packFields op 0 0 0 := by
  show (op ++ regBits rd ++ regBits rs1 ++ regBits rs2 ++ 0#12) &&& (0xFF#8 ++ m1 ++ m2 ++ m3 ++ 0xFFF#12) = _
  rw [BitVec.and_append, BitVec.and_append, BitVec.and_append, BitVec.and_append, h1, h2, h3]
  have : op &&& 0xFF#8 = op := BitVec.and_allOnes
  rw [this, BitVec.zero_and]
  rfl

/-- A packed word that meets the fixed bits of a row decodes to that row's command. The masks `m1`, `m2`, `m3` are those
of the row's format on the three register fields (R105). -/
theorem decode_packFields {row : OpRow} (hrow : row ∈ opcodeMap) {op : BitVec 8} {rd rs1 rs2 : Reg}
    (m1 m2 m3 : BitVec 4)
    (hmask : row.format.mask = (0xFF#8 ++ m1 ++ m2 ++ m3 ++ 0xFFF#12 : BitVec (8 + 4 + 4 + 4 + 12)))
    (hfixed : row.fixed = packFields op 0 0 0) (h1 : regBits rd &&& m1 = 0) (h2 : regBits rs1 &&& m2 = 0)
    (h3 : regBits rs2 &&& m3 = 0) : decode (packFields op rd rs1 rs2) = .ok (row.build rd rs1 rs2) := by
  have haccepts : row.accepts (packFields op rd rs1 rs2) = true := by
    rw [OpRow.accepts, hmask, hfixed, beq_iff_eq]
    exact packFields_and op h1 h2 h3
  rw [decode_of_accepts hrow haccepts, rdField_packFields, rs1Field_packFields, rs2Field_packFields]

/-- An even register number has bit 0 clear. -/
theorem regBits_and_one {r : Reg} (h : r.namesPair = true) : regBits r &&& 1 = 0 := by
  revert r
  decide

/-- The decoder reads back every well-formed command from its encoding. -/
theorem decode_encode {i : Instr} (h : i.wellFormed = true) : decode (encode i) = .ok i := by
  have row (k : Nat) (hk : k < opcodeMap.length) : opcodeMap[k] ∈ opcodeMap := List.getElem_mem hk
  have free (r : Reg) : regBits r &&& 0 = 0 := BitVec.and_zero
  have unused : regBits 0 &&& 15 = 0 := rfl
  cases i with
  | fld d => exact decode_packFields (row 0 (by decide)) 0 15 15 rfl rfl (free d) unused unused
  | fmov d a => exact decode_packFields (row 1 (by decide)) 0 0 15 rfl rfl (free d) (free a) unused
  | fadd d a b => exact decode_packFields (row 2 (by decide)) 0 0 0 rfl rfl (free d) (free a) (free b)
  | fsub d a b => exact decode_packFields (row 3 (by decide)) 0 0 0 rfl rfl (free d) (free a) (free b)
  | fmul d a b => exact decode_packFields (row 4 (by decide)) 0 0 0 rfl rfl (free d) (free a) (free b)
  | fneg d a => exact decode_packFields (row 5 (by decide)) 0 0 15 rfl rfl (free d) (free a) unused
  | finv d a => exact decode_packFields (row 6 (by decide)) 0 0 15 rfl rfl (free d) (free a) unused
  | fpow d a b => exact decode_packFields (row 7 (by decide)) 0 0 0 rfl rfl (free d) (free a) (free b)
  | feq a b => exact decode_packFields (row 8 (by decide)) 15 0 0 rfl rfl unused (free a) (free b)
  | fsqrt d a => exact decode_packFields (row 9 (by decide)) 0 0 15 rfl rfl (free d) (free a) unused
  | ell2 d a => exact decode_packFields (row 10 (by decide)) 1 0 15 rfl rfl (regBits_and_one h) (free a) unused
  | m2e d a =>
    obtain ⟨hd, ha⟩ : d.namesPair = true ∧ a.namesPair = true := by simpa [Instr.wellFormed] using h
    exact decode_packFields (row 11 (by decide)) 1 1 15 rfl rfl (regBits_and_one hd) (regBits_and_one ha) unused
  | h2f d a b => exact decode_packFields (row 12 (by decide)) 1 0 0 rfl rfl (regBits_and_one h) (free a) (free b)
  | h2c d a b => exact decode_packFields (row 13 (by decide)) 1 0 0 rfl rfl (regBits_and_one h) (free a) (free b)

end Sys2Proof.Proofs
end

section
/-! PROOFS. The invariant of 10_state.md holds at reset and every step keeps it. -/

namespace Sys2Proof.Proofs

open Sys2Proof.Machine Sys2Proof.Laws Sys2Proof.Spec

/-! ### STATUS stays legal -/

theorem legal_reset : Status.reset.Legal := ⟨by decide, by decide, by decide, by decide, by decide⟩

/-- Legality does not look at COLL or at the flags EQ, NR and BR. -/
theorem legal_withFlags {st : Status} (h : st.Legal) (coll eq nr br : Bool) :
    ({ st with coll := coll, eq := eq, nr := nr, br := br } : Status).Legal :=
  ⟨h.busy_not_done, h.busy_not_err, h.err_done, h.err_iff_code, h.stage_fits⟩

theorem legal_committed {st : Status} (h : st.Legal) : ({ st with done := true, busy := false } : Status).Legal :=
  ⟨by simp, by simp, fun _ => rfl, h.err_iff_code, h.stage_fits⟩

theorem legal_raised (st : Status) {e : ErrCode} {stage : Stage} (he : e ≠ .none) (hs : stage ∈ e.stages) :
    ({ st with errcode := e, errstage := stage, err := true, done := true, busy := false } : Status).Legal :=
  ⟨by simp, by simp, fun _ => rfl, by simpa using he, hs⟩

theorem legal_accepted (st : Status) : ({ st.clearError with done := false, busy := true } : Status).Legal :=
  ⟨fun _ => rfl, fun _ => rfl, by simp [Status.clearError], by simp [Status.clearError],
    by simp [Status.clearError, ErrCode.stages]⟩

/-- A host write to STATUS clears ERR, ERRCODE and ERRSTAGE together, and DONE never without them (R43). -/
theorem legal_writeOneToClear {st : Status} (h : st.Legal) (v : Word) : (st.writeOneToClear v).Legal := by
  rw [writeOneToClear_eq]
  by_cases hv : v[1] = true ∨ v[2] = true
  · have hcode : (v[1] || v[2]) = true := by simpa using hv
    have herr : (st.err && !v[1] && !v[2]) = false := by rcases hv with hv | hv <;> simp [hv]
    refine ⟨fun hb => ?_, fun _ => herr, fun he => ?_, ?_, ?_⟩
    · simp [h.busy_not_done hb]
    · simp [herr] at he
    · simp [herr, hcode]
    · simp [hcode, ErrCode.stages]
  · obtain ⟨h1, h2⟩ : v[1] = false ∧ v[2] = false := by simpa using hv
    simpa [h1, h2] using legal_withFlags h (st.coll && !v[3]) st.eq st.nr st.br

/-! ### Each operation keeps the invariant -/

/-- The invariant at the reset values. -/
theorem inv_of_eq_resetCore {s : State} (h : s = resetCore s) : s.Inv where
  canonical r := by rw [h]; simpa [State.elem, State.reset] using Build.p_pos s.build
  invalid_zero r _ := by rw [h]; simp [State.elem, State.reset]
  status_legal := by rw [h]; exact legal_reset
  cmd_latched hb := by rw [h] at hb; simp [State.reset, Status.reset] at hb
  requests_canonical := by rw [h]; simp [State.reset]
  held_at_reset _ := h

/-- What stands outside the core (the inputs to come, the word last read, the ports' readiness) is no part of the
invariant. -/
theorem inv_withOutside {s : State} (h : s.Inv) (rdata : Word) (inputs : List Input) (portLimit : Option Nat) :
    ({ s with rdata := rdata, inputs := inputs, portLimit := portLimit } : State).Inv :=
  { h with held_at_reset := fun hr => by rw [h.held_at_reset hr]; rfl }

section Released

variable {s : State} (h : s.Inv) (hr : s.resetHeld = false)
include h hr

theorem inv_writeWord (off : Nat) (v : Word) : (writeWord s off v).Inv := by
  cases writeWord_effect s off v with
  | accepts _ _ ht =>
    rw [ht]
    exact { h with
      status_legal := legal_accepted s.status
      cmd_latched := fun _ => rfl
      requests_canonical := by simp
      held_at_reset := by simp [hr] }
  | collides _ _ ht =>
    rw [ht]
    exact { h with
      status_legal := legal_withFlags h.status_legal true _ _ _
      held_at_reset := by simp [hr] }
  | acknowledges _ ht =>
    rw [ht]
    exact { h with
      status_legal := legal_writeOneToClear h.status_legal v
      cmd_latched := fun hb => h.cmd_latched (by simpa [writeOneToClear_eq] using hb)
      held_at_reset := by simp [hr] }
  | resets _ _ ht =>
    rw [ht]
    exact inv_of_eq_resetCore rfl
  | enables _ _ ht =>
    rw [ht]
    exact { h with held_at_reset := by simp [hr] }
  | stores k _ ht =>
    rw [ht]
    exact { h with held_at_reset := by simp [hr] }
  | ignored ht =>
    rw [ht]
    exact h

/-- The writes a command makes before its last line. -/
theorem inv_writes {i : Instr} {u : State} (hw : Writes i s u) : u.Inv where
  canonical := hw.canonical h.canonical
  invalid_zero := hw.invalid_zero h.invalid_zero
  status_legal := by rw [hw.status]; exact legal_withFlags h.status_legal _ _ _ _
  cmd_latched hb := by
    rw [hw.status] at hb
    rw [hw.cmd, hw.cmdl, h.cmd_latched hb]
  requests_canonical := by rw [hw.build]; exact hw.requests_canonical h.canonical h.requests_canonical
  held_at_reset := by simp [hw.resetHeld, hr]

theorem inv_effect {i : Instr} {t : State} (he : Effect i s t) : t.Inv := by
  cases he with
  | raised e stage reqs hne hs hw ht =>
    rw [ht]
    exact { inv_writes h hr hw with
      status_legal := legal_raised s.status hne (mayRaise_stages hs)
      cmd_latched := by simp
      held_at_reset := by simp [hr] }
  | waits reqs _ hw ht =>
    rw [ht]
    exact inv_writes h hr hw
  | commits u hw ht =>
    have hu := inv_writes h hr hw
    rw [ht]
    exact { hu with
      status_legal := legal_committed hu.status_legal
      cmd_latched := by simp
      held_at_reset := by simp [hw.resetHeld, hr] }

theorem inv_unitStep {t : State} (hu : unitStep s = .next t) : t.Inv := by
  obtain ⟨-, rfl⟩ | ⟨-, i, he⟩ := unitStep_effect hu
  · exact h
  · exact inv_effect h hr he

theorem inv_takeInput {i : Input} {t : State} (ht : takeInput s i = .next t) : t.Inv := by
  cases i with
  | hostRead a =>
    obtain ⟨off, -, rfl⟩ := hostRead_next ht
    exact inv_withOutside h _ _ _
  | hostWrite a v =>
    obtain ⟨off, -, rfl⟩ := hostWrite_next ht
    simpa [hr] using inv_writeWord h hr off v
  | unit => exact inv_unitStep h hr ht
  | resetInput level =>
    cases ht
    exact inv_of_eq_resetCore rfl
  | ports limit =>
    cases ht
    exact inv_withOutside h _ _ _

end Released

/-- Settles O51: while the reset input is asserted a step leaves the reset values; otherwise it is the unit's or that of
one input, and each operation these are made of keeps the invariant. -/
theorem stepKeepsInvariant : Obligations.StepKeepsInvariant := by
  intro s t h hs
  cases hr : s.resetHeld with
  | true =>
    obtain ⟨_, _, _, rfl, -⟩ := step_held hr hs
    exact inv_of_eq_resetCore rfl
  | false =>
    cases hi : s.inputs with
    | nil => exact inv_unitStep h hr (step_nil_released hr hi ▸ hs)
    | cons i rest => exact inv_takeInput (inv_withOutside h _ rest _) hr (step_cons_released hr hi ▸ hs)

/-- Settles O52: the reset state is its own reset. -/
theorem resetMeetsInvariant : Obligations.ResetMeetsInvariant := inv_of_eq_resetCore rfl

end Sys2Proof.Proofs
end

section
/-! PROOFS. Reset, the read-back of CMD, and what commands and inputs leave unchanged. -/

namespace Sys2Proof.Proofs

open Sys2Proof.Machine Sys2Proof.Laws Sys2Proof.Spec

/-! ### Reset -/

/-- Settles O1: the reset state is its own reset. -/
theorem resetValues : Obligations.ResetValues := atReset_resetCore State.reset

/-- Settles O2: an edge of the reset input and a CTRL write with bit 1 set both leave a reset core of the same build. -/
theorem resetFromAnyState : Obligations.ResetFromAnyState := by
  rintro s rest (⟨level, hi, -⟩ | ⟨v, hw, hv⟩)
  · have hb : (underReset s).build = s.build := underReset_build s
    exact ⟨_, step_resetInput hi, atReset_resetCore { underReset s with inputs := rest }, rfl, hb,
      fun off h => readWord_constant h hb⟩
  · refine ⟨_, step_writesCtrl hw, ?_⟩
    rw [writeCtrl_reset hv]
    exact ⟨atReset_resetCore _, rfl, rfl, fun off h => readWord_constant h rfl⟩

/-! ### CMD and the command lifecycle -/

/-- Settles O12: a CMD write is `accept` or `collide`; the words of the joined WBUF are its words. -/
theorem commandAccepted : Obligations.CommandAccepted :=
  ⟨fun s _ _ hw hb => ⟨_, step_writesCmd_idle hw hb, rfl, rfl, fun k => wordOf_joinWords s.wbuf k⟩,
    fun _ _ _ hw hb => ⟨_, step_writesCmd_busy hw hb, rfl, rfl, rfl⟩,
    fun _ _ hb hd => unitStep_illegal hb hd⟩

/-- No command writes CMD, however it ends. -/
theorem unitStep_cmd {s t : State} (h : unitStep s = .next t) : t.cmd = s.cmd := by
  obtain ⟨-, rfl⟩ | ⟨-, i, he⟩ := unitStep_effect h
  · rfl
  · obtain ⟨u, hw, ht, -⟩ := effect_writes he
    rw [ht, ← hw.cmd]

/-- An input changes CMD only by an accepted command word or a reset. -/
theorem takeInput_cmd {s t : State} {i : Input} (hr : s.resetHeld = false) (h : takeInput s i = .next t)
    (hreset : ¬ AtReset t) (hbusy : ∀ w, i = .hostWrite ⟨s.build.base + 0x014, 4⟩ w → s.status.busy = true) :
    t.cmd = s.cmd := by
  cases i with
  | hostRead a =>
    obtain ⟨off, -, rfl⟩ := hostRead_next h
    rfl
  | hostWrite a v =>
    obtain ⟨off, ha, ht⟩ := hostWrite_next h
    obtain ⟨rfl, hoff, h4⟩ := (accessOffset_ok_iff _ _ _).1 ha
    rw [hr, if_neg Bool.false_ne_true] at ht
    cases ht ▸ writeWord_effect s off v with
    | accepts hw hb =>
      obtain rfl := offset_of_cmd h4 hw
      simp [hbusy v rfl] at hb
    | resets _ _ ht => exact absurd (ht ▸ atReset_resetCore s) hreset
    | collides _ _ ht | acknowledges _ ht | enables _ _ ht | stores _ _ ht | ignored ht => subst ht; rfl
  | unit => exact unitStep_cmd h
  | resetInput level =>
    cases h
    exact absurd (atReset_resetCore s) hreset
  | ports limit =>
    cases h
    rfl

/-- Settles O13: the window shows `cmd` itself, which a step changes only by acceptance or a reset. -/
theorem cmdReadsLastAccepted : Obligations.CmdReadsLastAccepted := by
  refine ⟨fun _ => rfl, fun s h hb => h.cmd_latched hb, fun s ⟨_, _, hcmd, _⟩ => hcmd,
    fun s w rest hw hb => ⟨_, step_writesCmd_idle hw hb, rfl⟩, fun s t hs hreset hbusy => ?_⟩
  show t.cmd = s.cmd
  cases hr : s.resetHeld with
  | true =>
    obtain ⟨_, _, _, rfl, -⟩ := step_held hr hs
    exact absurd (atReset_resetCore s) hreset
  | false =>
    cases hi : s.inputs with
    | nil => exact unitStep_cmd (step_nil_released hr hi ▸ hs)
    | cons i rest =>
      rw [step_cons_released hr hi] at hs
      exact takeInput_cmd (s := { s with inputs := rest }) hr hs hreset fun w hw => hbusy w rest ⟨hr, hw ▸ hi⟩

/-! ### What a command leaves unchanged -/

/-- Settles O19: a command is some of its own writes and a change of STATUS, and the window shows no more than that. -/
theorem commandFrame : Obligations.CommandFrame := by
  intro s t i h
  obtain ⟨u, hw, ht, hcoll, heq, hnr, hbr⟩ := effect_writes (exec_effect h)
  have hregs : ∀ r, r ∉ destinations i → t.elem r = s.elem r ∧ t.isValid r = s.isValid r := by
    rw [ht]; exact hw.regs
  have hbuild : t.build = s.build := by rw [ht]; exact hw.build
  have hwbuf : t.wbuf = s.wbuf := by rw [ht]; exact hw.wbuf
  have hcmd : t.cmd = s.cmd := by rw [ht]; exact hw.cmd
  have hirq : t.irqEn = s.irqEn := by rw [ht]; exact hw.irqEn
  refine ⟨⟨hbuild, hwbuf, hcmd, ?_, ?_, hirq, ?_, ?_, ?_, ?_, ?_⟩, hregs, ?_, ?_, ?_, ?_, ?_⟩
  · rw [ht]; exact hw.cmdl
  · rw [ht]; exact hw.wsnap
  · rw [ht]; exact hw.resetHeld
  · rw [ht]; exact hw.rdata
  · rw [ht]; exact hw.inputs
  · rw [ht]; exact hw.portLimit
  · rw [hcoll, hw.status]
  · rw [heq]; exact hw.eq
  · rw [hnr]; exact hw.nr
  · rw [hbr]; exact hw.br
  · rw [ht]; exact hw.requests
  · intro off hstatus hvalidr hfreg
    have hread : readWord t (off - off % 4) = readWord s (off - off % 4) :=
      read_congr hbuild hwbuf hcmd hirq hstatus hvalidr fun r k e => BitVec.eq_of_toNat_eq (hregs r (hfreg r k e)).1
    rw [windowByte, windowByte, hread]

/-- An input that is neither the unit's nor a reset leaves the register file. -/
theorem takeInput_registers {s t : State} {i : Input} (hr : s.resetHeld = false)
    (hi : touchesRegisters s.build.toParams i = false) (h : takeInput s i = .next t) :
    t.freg = s.freg ∧ t.valid = s.valid := by
  cases i with
  | hostRead a =>
    obtain ⟨off, -, rfl⟩ := hostRead_next h
    exact ⟨rfl, rfl⟩
  | hostWrite a v =>
    obtain ⟨off, ha, ht⟩ := hostWrite_next h
    obtain ⟨rfl, hoff, h4⟩ := (accessOffset_ok_iff _ _ _).1 ha
    rw [hr, if_neg Bool.false_ne_true] at ht
    cases ht ▸ writeWord_effect s off v with
    | resets hw hv =>
      obtain rfl := offset_of_ctrl h4 hw
      simp [touchesRegisters, hv] at hi
    | accepts _ _ ht | collides _ _ ht | acknowledges _ ht | enables _ _ ht | stores _ _ ht | ignored ht =>
      rw [ht]; exact ⟨rfl, rfl⟩
  | unit | resetInput level => simp [touchesRegisters] at hi
  | ports limit =>
    cases h
    exact ⟨rfl, rfl⟩

/-- Settles O54: of the endings of a command only the commit writes registers, and it leaves the unit IDLE with the
error fields as they were. -/
theorem registersChangeOnlyAtCommits : Obligations.RegistersChangeOnlyAtCommits := by
  refine ⟨fun s t i rest hr hi hn hs => ?_, fun s t hb hu => ?_, fun s t hu hb => ?_, fun s t hu r hv => ?_,
    fun s t he hu ht => ?_, fun s rest h => step_unitNext h, fun s hr hi => step_nil_released hr hi⟩
  · rw [step_cons_released hr hi] at hs
    exact takeInput_registers (s := { s with inputs := rest }) hr hn hs
  · rw [unitStep_idle hb] at hu
    cases hu
    rfl
  · obtain ⟨-, rfl⟩ | ⟨-, i, hend⟩ := unitStep_effect hu
    · exact ⟨rfl, rfl⟩
    · cases hend with
      | raised _ _ _ _ _ _ ht => simp [ht] at hb
      | waits _ _ _ ht => rw [ht]; exact ⟨rfl, rfl⟩
      | commits _ _ ht => simp [ht] at hb
  · obtain ⟨-, rfl⟩ | ⟨-, i, hend⟩ := unitStep_effect hu
    · exact hv
    · obtain ⟨u, hw, ht, -⟩ := effect_writes hend
      rw [ht]
      exact hw.valid_mono r hv
  · obtain ⟨-, rfl⟩ | ⟨-, i, hend⟩ := unitStep_effect hu
    · exact ⟨rfl, rfl⟩
    · cases hend with
      | raised _ _ _ _ _ _ ht => rw [ht]; exact ⟨rfl, rfl⟩
      | waits _ _ _ ht => rw [ht]; exact ⟨rfl, rfl⟩
      | commits u hw hf => rw [hf, finish_status, hw.status, he] at ht; cases ht

end Sys2Proof.Proofs
end

section
/-! PROOFS. WBUF, the windows of 256-bit values, and PARAM_INFO. -/

namespace Sys2Proof.Proofs

open Sys2Proof.Machine Sys2Proof.Laws Sys2Proof.Spec

/-! ### WBUF and the windows of 256-bit values -/

theorem readWord_wbuf_joinWords (s : State) (k : Fin 8) :
    readWord s (0x040 + 4 * k.val) = wordOf (joinWords s.wbuf) k := by
  rw [readWord_wbuf, wordOf_joinWords]

/-- Settles O40: `writeWbuf` sets one word of the vector that the window shows. -/
theorem wbufReadsBack : Obligations.WbufReadsBack := by
  refine ⟨fun s k v rest h => ⟨_, step_writesWbuf h, rfl, ?_, fun j hj => ?_⟩, fun k => ?_, fun s => ?_⟩
  · simp
  · have : (k : Nat) ≠ j := fun e => hj (Fin.ext e.symm)
    simp [this]
  · simp [State.reset]
  · exact (sum_readWord (readWord_wbuf_joinWords s)).symm

/-- Settles O46: the eight words of a value sum up to it (`sum_wordOf`), and a parameter is below 2 ^ 256. -/
theorem valueWindows : Obligations.ValueWindows := by
  refine ⟨fun k => ⟨readOnly_of_offset (by omega), readOnly_of_offset (by omega), readOnly_of_offset (by omega)⟩,
    fun s hs => ⟨?_, ?_, ?_, fun hc r => ?_⟩, fun s n r hc hn => (hc r).trans hn,
    fun r k => readOnly_of_offset (by omega), fun s => ⟨?_, ?_, ?_, ?_, fun r => ?_⟩⟩
  · exact (readWord_pWord s 0).trans (by rw [hs]; decide)
  · exact (readWord_pWord s 7).trans (by rw [hs]; decide)
  · exact (readWord_jWord s 0).trans (by rw [hs]; decide)
  · have hlt : s.elem r < Build.bjj.p := hs ▸ hc r
    exact (congrArg _ (readWord_freg s r 7)).trans (wordOf_topBits (hlt.trans (by decide)))
  · exact sum_readWord (readWord_wbuf_joinWords s)
  · exact (sum_readWord (readWord_pWord s)).trans (toElem_toNat s.build.valid.p_lt)
  · exact (sum_readWord (readWord_jWord s)).trans (toElem_toNat_of_lt s.build.valid.J_lt)
  · exact (sum_readWord (readWord_zWord s)).trans (toElem_toNat_of_lt s.build.valid.z_lt)
  · exact sum_readWord (readWord_freg s r)

/-! ### PARAM_INFO -/

/-- `valTwo` splits off the power of 2 in a positive number that its fuel covers. -/
theorem valTwo_spec : ∀ fuel n, 0 < n → n < 2 ^ fuel → ∃ q, n = 2 ^ valTwo fuel n * q ∧ q % 2 = 1
  | 0, n, h0, h => by simp at h; omega
  | fuel + 1, n, h0, h => by
    by_cases hn : n % 2 = 0
    · obtain ⟨q, hq, hodd⟩ := valTwo_spec fuel (n / 2) (by omega) (by omega)
      refine ⟨q, ?_, hodd⟩
      rw [valTwo, if_pos hn, pow_succ, mul_assoc, mul_left_comm, ← hq]
      omega
    · exact ⟨n, by simp [valTwo, hn], by omega⟩

/-- `twoAdicity` is the exponent of 2 in `p - 1` (R6). -/
theorem twoAdicity_spec (b : Build) : ∃ q, b.p - 1 = 2 ^ twoAdicity b.p * q ∧ q % 2 = 1 :=
  have hp := b.valid.prime.two_le
  have hlt := b.valid.p_lt
  valTwo_spec 256 (b.p - 1) (by omega) (by omega)

theorem twoAdicity_lt (b : Build) : twoAdicity b.p < 256 := by
  obtain ⟨q, hq, hodd⟩ := twoAdicity_spec b
  have hle : 2 ^ twoAdicity b.p ≤ 2 ^ twoAdicity b.p * q := Nat.le_mul_of_pos_right _ (by omega)
  have hlt := b.valid.p_lt
  exact (Nat.pow_lt_pow_iff_right (a := 2) (by decide)).1 (by omega)

/-- Settles O45: PARAM_INFO is four bytes, and the adicity fits in its own. -/
theorem paramInfoFields : Obligations.ParamInfoFields := by
  refine ⟨fun s => ?_, fun s hs => ?_, readOnly_of_offset (by decide)⟩
  · obtain ⟨q, hq, hodd⟩ := twoAdicity_spec s.build
    obtain ⟨h0, h1, h2, h3⟩ := extractLsb'_bytes 0#8 (BitVec.ofNat 8 (twoAdicity s.build.p)) 8#8 16#8
    refine ⟨h0, h1, h3, twoAdicity s.build.p, q, (congrArg BitVec.toNat h2).trans ?_, hq, hodd⟩
    rw [BitVec.toNat_ofNat, Nat.mod_eq_of_lt (twoAdicity_lt s.build)]
  · show paramInfoWord s = _
    rw [paramInfoWord, hs]
    decide +kernel

end Sys2Proof.Proofs
end

section
/-! PROOFS. STATUS, the interrupt, CTRL, the identity registers and VALIDR. -/

namespace Sys2Proof.Proofs

open Sys2Proof.Machine Sys2Proof.Laws Sys2Proof.Spec

/-! ### STATUS and the interrupt -/

/-- The flags of STATUS, seven and a reserved 0, are its low byte; the other three bytes stand above it. -/
theorem statusWord_bytes {st : Status} {start : Nat} {b : Byte}
    (h : (0#8 ++ BitVec.ofNat 8 st.errstage.val ++ st.errcode.code).extractLsb' start 8 = b) :
    st.word.extractLsb' (start + 8) 8 = b :=
  have skip {n : Nat} {x : BitVec n} {f : BitVec 1} {i : Nat} (h : x.extractLsb' i 8 = b) :
      (x ++ f).extractLsb' (i + 1) 8 = b := extractLsb'_append_add h
  skip (skip (skip (skip (skip (skip (skip (skip h)))))))

/-- Settles O47: bit by bit from the low end, dropping one flag at a time. -/
theorem statusLayout : Obligations.StatusLayout := by
  intro s
  have zero {n : Nat} {x : BitVec n} {b : Bool} : (x ++ flagBit b)[0] = b := getElem_append_flagBit
  have succ {n i : Nat} {x : BitVec n} {f : BitVec 1} {b : Bool} {hi : i < n} (h : x[i] = b) :
      (x ++ f)[i + 1] = b := getElem_append_add h
  refine ⟨zero, succ zero, succ (succ zero), succ (succ (succ zero)), succ (succ (succ (succ zero))),
    succ (succ (succ (succ (succ zero)))), succ (succ (succ (succ (succ (succ zero))))),
    succ (succ (succ (succ (succ (succ (succ (zero (b := false)))))))),
    statusWord_bytes BitVec.extractLsb'_append_eq_right, ?_,
    statusWord_bytes (extractLsb'_append_add BitVec.extractLsb'_append_eq_left)⟩
  have hstage : (readWord s 0x010).extractLsb' 16 8 = BitVec.ofNat 8 s.status.errstage.val :=
    statusWord_bytes (extractLsb'_append_add BitVec.extractLsb'_append_eq_right)
  rw [hstage, BitVec.toNat_ofNat, Nat.mod_eq_of_lt (by omega)]

/-- Settles O38: the write is `acknowledge`, and `writeOneToClear_eq` says what that clears. -/
theorem statusWriteClears : Obligations.StatusWriteClears := by
  refine ⟨fun s rest h => step_readsNext h (by decide) (by decide), fun s v rest h => ?_⟩
  rw [step_writesStatus h, acknowledge, writeOneToClear_eq]

/-- Settles O49: a legal STATUS shows an error only with DONE, and bits 1 and 3 of a write clear DONE and COLL. -/
theorem interruptLevel : Obligations.InterruptLevel := by
  refine ⟨fun s => by simp [irq], fun s h herr hirq => ?_, fun s v rest h h1 h3 => ⟨_, step_writesStatus h, ?_⟩⟩
  · simp [irq, hirq, h.status_legal.err_done herr]
  · simp [irq, writeOneToClear_eq, h1, h3]

/-! ### CTRL and the identity registers -/

/-- Settles O39: a CTRL write is the soft reset or sets IRQ_EN, by its bit 1. -/
theorem ctrlWrite : Obligations.CtrlWrite := by
  refine ⟨fun s v rest h hv => ?_, fun s v rest h hv => ⟨_, step_writesCtrl h, ?_⟩, fun s => ?_⟩
  · rw [step_writesCtrl h, writeCtrl_enable hv]
  · rw [writeCtrl_reset hv]
    exact atReset_resetCore _
  · show (0#31 ++ flagBit s.irqEn).toNat = s.irqEn.toNat
    cases s.irqEn <;> rfl

/-- Settles O44: the two words are constants of the window, which no write reaches. -/
theorem identityRegisters : Obligations.IdentityRegisters :=
  ⟨fun _ => ⟨rfl, rfl⟩, readOnly_of_offset (by decide), readOnly_of_offset (by decide)⟩

/-! ### VALIDR -/

theorem validWord_getLsbD (s : State) (i : Nat) :
    (validWord s).getLsbD i = (decide (i < 32) && s.valid.toList.getD i false) := by
  rw [validWord, BitVec.getLsbD_ofNat, foldr_bits_testBit]

/-- Settles O48: VALIDR has the VALID bits as its binary digits. -/
theorem validRegisterBits : Obligations.ValidRegisterBits := by
  refine ⟨fun s r => ?_, fun s => ?_, by decide, readOnly_of_offset (by decide)⟩
  · show (validWord s).getLsbD r.val = s.isValid r
    rw [validWord_getLsbD]
    have : r.val < 32 := by omega
    simp [State.isValid, this]
  · show (validWord s).extractLsb' 16 16 = 0
    ext i hi
    rw [BitVec.getElem_extractLsb', validWord_getLsbD]
    simp

end Sys2Proof.Proofs
end

section
/-! PROOFS. The unit runs the command in its latch, and a source that is not valid ends it. -/

namespace Sys2Proof.Proofs

open Sys2Proof.Machine Sys2Proof.Laws Sys2Proof.Spec

/-! ### Running a latched command -/

/-- Settles O10: with the reset input released the step is the unit's, and a placed encoding decodes to its command. -/
theorem stepRunsLatchedCommand : Obligations.StepRunsLatchedCommand := by
  refine ⟨fun s i rest h hb hd => ?_, fun s i hr hi hb hd => ?_, fun s i hwf => ?_⟩
  · rw [step_unitNext h]
    exact unitStep_command (s := { s with inputs := rest }) hb hd
  · rw [step_nil_released hr hi, unitStep_command hb hd]
  · have hword : s.withFetchWord 32 (encode i).toNat = acceptNext (encode i) s := by
      rw [State.withFetchWord, Nat.mod_eq_of_lt (encode i).isLt, BitVec.ofNat_toNat, BitVec.setWidth_eq]
    rw [hword, step_unitNext (rest := s.inputs) ⟨rfl, rfl⟩]
    exact unitStep_command rfl (decode_encode hwf)

/-! ### Uninitialised operands -/

theorem withSource_uninitialised {r a : Reg} {s : State} (hr : r ∈ [a]) (hv : s.isValid r = false) (k : Nat → Result) :
    withSource a s k = .next (failed s .uninitialisedOperand 0) := by
  obtain rfl := List.mem_singleton.1 hr
  exact withSource_of_invalid hv k

theorem withSources_uninitialised {r a b : Reg} {s : State} (hr : r ∈ [a, b]) (hv : s.isValid r = false)
    (k : Nat → Nat → Result) : withSources a b s k = .next (failed s .uninitialisedOperand 0) := by
  obtain ⟨ha, hb, -⟩ | ⟨-, e⟩ := withSources_cases a b s k
  · obtain rfl | rfl : r = a ∨ r = b := by simpa using hr
    · simp [ha] at hv
    · simp [hb] at hv
  · exact e

/-- Settles O18: after the check of its pair fields every command reads its sources first. -/
theorem uninitialisedOperand : Obligations.UninitialisedOperand := by
  intro s i r hwf hr hv
  have pair {d : Reg} (h : d.namesPair = true) (k : Result) : withPairField d s k = k :=
    withPairField_even ((namesPair_iff d).1 h) s k
  cases i with
  | fld d => simp [sources] at hr
  | fmov d a | fneg d a | finv d a | fsqrt d a =>
    simp only [exec, execFmov, execFneg, execFinv, execFsqrt]
    exact withSource_uninitialised hr hv _
  | fadd d a b | fsub d a b | fmul d a b | fpow d a b | feq a b =>
    simp only [exec, execFadd, execFsub, execFmul, execFpow, execFeq, binaryOp]
    exact withSources_uninitialised hr hv _
  | ell2 d a => exact (pair hwf _).trans (withSource_uninitialised hr hv _)
  | m2e d a =>
    obtain ⟨hd, ha⟩ : d.namesPair = true ∧ a.namesPair = true := by simpa [Instr.wellFormed] using hwf
    exact (pair hd _).trans ((pair ha _).trans (withSources_uninitialised hr hv _))
  | h2f d a b | h2c d a b => exact (pair hwf _).trans (withSources_uninitialised hr hv _)

end Sys2Proof.Proofs
end

section
/-! PROOFS. The host's accesses to the window: ignored, refused and repeated. -/

namespace Sys2Proof.Proofs

open Sys2Proof.Machine Sys2Proof.Laws Sys2Proof.Spec

/-! ### Reads, and writes that are ignored or refused -/

/-- Settles O41: the map has no writable register at these offsets, and shows 0 at the reserved ones. -/
theorem readOnlyAndReserved : Obligations.ReadOnlyAndReserved := by
  refine ⟨fun off hoff h4 hctrl hstatus hcmd hwbuf => readOnly_of_offset ⟨hoff, h4, hctrl, hstatus, hcmd, hwbuf⟩,
    fun s off rest h hoff h4 hres => ?_⟩
  have hzero : readWord s off = 0 := by rw [readWord, windowReg_reserved hres, WindowReg.read]
  rw [step_readsNext h hoff h4, hzero]

/-- Settles O42: `step_readsNext` gives the whole state after a supported read. -/
theorem readsHaveNoSideEffect : Obligations.ReadsHaveNoSideEffect := fun _ _ _ => step_readsNext

/-- An access that is too narrow or too wide, misaligned, or not wholly inside the window has no offset (R70, R72). -/
theorem accessOffset_unsupported {c : Params} {a : Access}
    (h : a.bytes ≠ 4 ∨ (a.addr - c.base) % 4 ≠ 0 ∨ a.addr < c.base ∨ c.base + 4096 < a.addr + a.bytes) :
    ∃ r, accessOffset c a = .error r := by
  cases ha : accessOffset c a with
  | error r => exact ⟨r, rfl⟩
  | ok off =>
    obtain ⟨rfl, hoff, h4⟩ := (accessOffset_ok_iff _ _ _).1 ha
    simp only at h
    omega

/-- Settles O43: an access without an offset is refused, under reset too, which leaves the base of the window. -/
theorem unsupportedAccessRefused : Obligations.UnsupportedAccessRefused := by
  intro s a v rest h
  obtain ⟨r, hr⟩ := accessOffset_unsupported (c := (underReset s).build.toParams) (by rwa [underReset_build])
  constructor <;> intro hi <;> refine ⟨r, ?_⟩ <;> rw [step_cons hi, takeInput]
  · simp only [hostRead, hr]
  · simp only [hostWrite, hr]

/-! ### Writes that may be repeated -/

theorem acknowledge_acknowledge (v : Word) (s : State) : acknowledge v (acknowledge v s) = acknowledge v s := by
  simp only [acknowledge, writeOneToClear_eq]
  cases v[1] <;> cases v[2] <;> simp

theorem writeWbuf_writeWbuf (k : Fin 8) (v : Word) (s : State) : writeWbuf k v (writeWbuf k v s) = writeWbuf k v s := by
  simp [writeWbuf]

/-- A write to STATUS, to CTRL with bit 1 clear, or to a word of WBUF does nothing the second time (R79). -/
theorem writeWord_writeWord {off : Nat} {v : Word}
    (h : off = 0x010 ∨ (off = 0x00C ∧ v[1] = false) ∨ (0x040 ≤ off ∧ off < 0x060 ∧ off % 4 = 0)) (s : State) :
    writeWord (writeWord s off v) off v = writeWord s off v := by
  obtain rfl | ⟨rfl, hv⟩ | hwbuf := h
  · exact acknowledge_acknowledge v s
  · show writeCtrl v (writeCtrl v s) = writeCtrl v s
    rw [writeCtrl_enable hv, writeCtrl_enable hv]
  · obtain ⟨k, rfl⟩ : ∃ k : Fin 8, off = 0x040 + 4 * k.val := ⟨⟨(off - 0x040) / 4, by omega⟩, by simp only; omega⟩
    simp only [writeWord, windowReg_wbuf, WindowReg.write, writeWbuf_writeWbuf]

/-- No write moves the window or the reset input. -/
theorem writeWord_build_resetHeld (s : State) (off : Nat) (v : Word) :
    (writeWord s off v).build = s.build ∧ (writeWord s off v).resetHeld = s.resetHeld := by
  cases writeWord_effect s off v with
  | accepts _ _ ht | collides _ _ ht | acknowledges _ ht | resets _ _ ht | enables _ _ ht | stores _ _ ht | ignored ht =>
    rw [ht]; exact ⟨rfl, rfl⟩

theorem hostWrite_at {s : State} {off : Nat} (hoff : off < 4096) (h4 : off % 4 = 0) (v : Word) :
    hostWrite ⟨s.build.base + off, 4⟩ v s = .next (if s.resetHeld then s else writeWord s off v) := by
  simp only [hostWrite, accessOffset_at _ hoff h4]

/-- Settles O50: the second write meets the same window, and `writeWord_writeWord` says that it changes nothing. -/
theorem idempotentWrites : Obligations.IdempotentWrites := by
  intro s t u off v h ht hu
  have hoff : off < 4096 := by omega
  have h4 : off % 4 = 0 := by omega
  rw [hostWrite_at hoff h4] at ht
  cases hr : s.resetHeld with
  | true =>
    obtain rfl : s = t := by simpa [hr] using ht
    simpa [hostWrite_at hoff h4, hr] using hu.symm
  | false =>
    obtain rfl : writeWord s off v = t := by simpa [hr] using ht
    obtain ⟨hbuild, hheld⟩ := writeWord_build_resetHeld s off v
    rw [← hbuild, hostWrite_at hoff h4, hheld, hr] at hu
    simpa [writeWord_writeWord h] using hu.symm

end Sys2Proof.Proofs
end

section
/-! PROOFS. A WBUF write beside a running command. -/

namespace Sys2Proof.Proofs

open Sys2Proof.Machine Sys2Proof.Laws Sys2Proof.Spec

/-! ### The write and the unit's step -/

/-- `f` on the state a step answers. -/
def onNext (f : State → State) : Result → Result
  | .next s => .next (f s)
  | .fault r => .fault r
  | .refused r => .refused r

/-- `s` with other inputs to come. -/
def withInputs (inputs : List Input) (s : State) : State := { s with inputs := inputs }

/-- The host's write of `v` to word `k` of WBUF. -/
def wbufWrite (c : Params) (k : Fin 8) (v : Word) : Input := .hostWrite ⟨c.base + (0x040 + 4 * k.val), 4⟩ v

/-- What that write leaves when it is taken with the reset input released and `rest` is still to come; see
`step_wbufWrite`. -/
def takeWbufWrite (k : Fin 8) (v : Word) (rest : List Input) (s : State) : State := writeWbuf k v (withInputs rest s)

@[simp] theorem takeWbufWrite_build (k : Fin 8) (v : Word) (rest : List Input) (s : State) :
    (takeWbufWrite k v rest s).build = s.build := rfl

/-! The unit commutes with the write: each operation a command is made of reads and writes neither WBUF nor the inputs
still to come. -/

section Commutes

variable {k : Fin 8} {v : Word} {rest : List Input} {s : State}

theorem withSource_takeWbufWrite {r : Reg} {m m' : Nat → Result}
    (h : ∀ a, m' a = onNext (takeWbufWrite k v rest) (m a)) :
    withSource r (takeWbufWrite k v rest s) m' = onNext (takeWbufWrite k v rest) (withSource r s m) := by
  obtain ⟨hv, e⟩ | ⟨hv, e⟩ := withSource_cases r s m
  · rw [e, ← h]
    exact withSource_of_valid (s := takeWbufWrite k v rest s) hv m'
  · rw [e]
    exact withSource_of_invalid (s := takeWbufWrite k v rest s) hv m'

theorem withSources_takeWbufWrite {r1 r2 : Reg} {m m' : Nat → Nat → Result}
    (h : ∀ a b, m' a b = onNext (takeWbufWrite k v rest) (m a b)) :
    withSources r1 r2 (takeWbufWrite k v rest s) m' = onNext (takeWbufWrite k v rest) (withSources r1 r2 s m) :=
  withSource_takeWbufWrite fun a => withSource_takeWbufWrite (h a)

theorem withPairField_takeWbufWrite {r : Reg} {m m' : Result} (h : m' = onNext (takeWbufWrite k v rest) m) :
    withPairField r (takeWbufWrite k v rest s) m' = onNext (takeWbufWrite k v rest) (withPairField r s m) := by
  obtain ⟨hr, e⟩ | ⟨hr, e⟩ := withPairField_cases r s m
  · rw [e, ← h]
    exact withPairField_even hr _ m'
  · rw [e]
    exact withPairField_odd hr _ m'

theorem concludeRun_takeWbufWrite (prd : Reg) (r : Run Point) :
    concludeRun prd (takeWbufWrite k v rest s) r = onNext (takeWbufWrite k v rest) (concludeRun prd s r) := by
  unfold concludeRun
  cases r.ending <;> rfl

/-- No command reads or writes WBUF: FLD loads the copy taken at acceptance (R85). -/
theorem exec_takeWbufWrite (i : Instr) :
    exec i (takeWbufWrite k v rest s) = onNext (takeWbufWrite k v rest) (exec i s) := by
  cases i with
  | fld d =>
    simp only [exec, execFld, apply_ite (onNext _)]
    rfl
  | fmov d a | fneg d a =>
    simp only [exec, execFmov, execFneg]
    exact withSource_takeWbufWrite fun _ => rfl
  | fadd d a b | fsub d a b | fmul d a b | fpow d a b | feq a b =>
    simp only [exec, execFadd, execFsub, execFmul, execFpow, execFeq, binaryOp]
    exact withSources_takeWbufWrite fun _ _ => rfl
  | finv d a =>
    simp only [exec, execFinv]
    refine withSource_takeWbufWrite fun x => ?_
    simp only [apply_ite (onNext _)]
    rfl
  | fsqrt d a =>
    simp only [exec, execFsqrt]
    refine withSource_takeWbufWrite fun n => ?_
    simp only [takeWbufWrite_build]
    cases sqrtTS s.build.toParams n <;> rfl
  | ell2 d a =>
    simp only [exec, execEll2]
    refine withPairField_takeWbufWrite (withSource_takeWbufWrite fun u => ?_)
    simp only [takeWbufWrite_build]
    cases ell2Map s.build.toParams u <;> rfl
  | m2e d a =>
    simp only [exec, execM2e, withPairSource]
    refine withPairField_takeWbufWrite (withPairField_takeWbufWrite (withSources_takeWbufWrite fun x y => ?_))
    simp only [takeWbufWrite_build]
    cases montToEd s.build.p ⟨x, y⟩ <;> rfl
  | h2f d a b | h2c d a b =>
    simp only [exec, execH2f, execH2c, h2fOver, h2cOver]
    exact withPairField_takeWbufWrite (withSources_takeWbufWrite fun _ _ => concludeRun_takeWbufWrite d _)

theorem unitStep_takeWbufWrite :
    unitStep (takeWbufWrite k v rest s) = onNext (takeWbufWrite k v rest) (unitStep s) := by
  obtain ⟨hb, e⟩ | ⟨hb, i, hd, e⟩ | ⟨hb, ⟨_, hd⟩, e⟩ := unitStep_cases s <;> rw [e]
  · exact unitStep_idle (s := takeWbufWrite k v rest s) hb
  · exact (unitStep_command (s := takeWbufWrite k v rest s) hb hd).trans (exec_takeWbufWrite i)
  · exact unitStep_illegal (s := takeWbufWrite k v rest s) hb hd

end Commutes

/-- The unit's step always answers a next state, and leaves what decides on the host's next access. -/
theorem unitStep_next (s : State) :
    ∃ t, unitStep s = .next t ∧ t.build = s.build ∧ t.resetHeld = s.resetHeld ∧ t.inputs = s.inputs := by
  obtain ⟨hb, e⟩ | ⟨hb, i, hd, e⟩ | ⟨hb, hd, e⟩ := unitStep_cases s
  · exact ⟨s, e, rfl, rfl, rfl⟩
  · obtain ⟨t, ht⟩ := exec_next i s
    obtain ⟨u, hw, htu, -⟩ := effect_writes (exec_effect ht)
    rw [htu] at ht
    exact ⟨_, e.trans ht, hw.build, hw.resetHeld, hw.inputs⟩
  · exact ⟨_, e, rfl, rfl, rfl⟩

/-! ### The two orders -/

theorem run_two {s t : State} (h : step s = .next t) : core.run 2 s = step t := by
  have hstep : core.step s = .next t := h
  simp only [Host.Core.run, hstep]
  show _ = core.step t
  cases core.step t <;> rfl

/-- Two runs of two steps end alike if their second steps do. -/
theorem run_two_congr {s s' t t' : State} (h : step s = .next t) (h' : step s' = .next t') (heq : step t = step t') :
    core.run 2 s = core.run 2 s' := (run_two h).trans (heq.trans (run_two h').symm)

theorem step_unit {s : State} (hr : s.resetHeld = false) (rest : List Input) :
    step (withInputs (.unit :: rest) s) = unitStep (withInputs rest s) := step_unitNext ⟨hr, rfl⟩

theorem step_wbufWrite {s : State} (hr : s.resetHeld = false) (k : Fin 8) (v : Word) (rest : List Input) :
    step (withInputs (wbufWrite s.build.toParams k v :: rest) s) = .next (takeWbufWrite k v rest s) :=
  step_writesWbuf ⟨hr, rfl⟩

theorem step_held_cons {s : State} (hr : s.resetHeld = true) (i : Input) (rest : List Input) :
    step (withInputs (i :: rest) s) = takeInput (withInputs rest (resetCore s)) i := by
  rw [step_cons rfl, underReset_held (s := withInputs (i :: rest) s) hr]
  rfl

/-- While the reset input is asserted the unit is IDLE. -/
theorem step_unit_held {s : State} (hr : s.resetHeld = true) (rest : List Input) :
    step (withInputs (.unit :: rest) s) = .next (withInputs rest (resetCore s)) := by
  rw [step_held_cons hr]
  exact unitStep_idle rfl

/-- While the reset input is asserted a write is lost. -/
theorem step_wbufWrite_held {s : State} (hr : s.resetHeld = true) (k : Fin 8) (v : Word) (rest : List Input) :
    step (withInputs (wbufWrite s.build.toParams k v :: rest) s) = .next (withInputs rest (resetCore s)) := by
  rw [step_held_cons hr]
  exact (hostWrite_at (s := withInputs rest (resetCore s)) (by omega) (by omega) v).trans (congrArg _ (if_pos hr))

/-- Settles O55: under reset both steps leave the reset values; otherwise the unit's step commutes with the write, by
`unitStep_takeWbufWrite`. -/
theorem wbufWriteCommutesWithUnit : Obligations.WbufWriteCommutesWithUnit := by
  intro s k v rest _ write
  show core.run 2 (withInputs (.unit :: write :: rest) s) = core.run 2 (withInputs (write :: .unit :: rest) s)
  cases hr : s.resetHeld with
  | true =>
    refine run_two_congr (step_unit_held hr _) (step_wbufWrite_held hr k v _) ?_
    calc step (withInputs (write :: rest) (resetCore s))
        = .next (withInputs rest (resetCore s)) := step_wbufWrite_held (s := resetCore s) hr k v rest
      _ = step (withInputs (.unit :: rest) (resetCore s)) := (step_unit_held (s := resetCore s) hr rest).symm
  | false =>
    obtain ⟨t, ht, hbuild, hheld, hinputs⟩ := unitStep_next (withInputs (write :: rest) s)
    refine run_two_congr ((step_unit hr _).trans ht) (step_wbufWrite hr k v _) ?_
    calc step t
        = .next (takeWbufWrite k v rest t) := step_writesWbuf ⟨hheld.trans hr, by rw [hinputs, hbuild]; rfl⟩
      _ = unitStep (takeWbufWrite k v rest (withInputs (write :: rest) s)) := by rw [unitStep_takeWbufWrite, ht, onNext]
      _ = step (takeWbufWrite k v (.unit :: rest) s) := (step_unit (s := takeWbufWrite k v rest s) hr rest).symm

end Sys2Proof.Proofs
end

section
/-! PROOFS. Command words: what the decoder answers for every word, and what becomes of an illegal one. -/

namespace Sys2Proof.Proofs

open Sys2Proof.Machine Sys2Proof.Laws Sys2Proof.Spec

/-! ### Legal words -/

/-- Settles O7: `decode_encode`, one row of the opcode map per command. -/
theorem encodeThenDecode : Obligations.EncodeThenDecode := fun _ h => decode_encode h

/-- Settles O6: the decoder evaluated on each word of the spec's table. -/
theorem specWordsDecode : Obligations.SpecWordsDecode :=
  ⟨rfl, rfl, rfl, rfl, rfl, rfl, rfl, rfl, rfl, rfl, rfl, rfl, rfl, rfl, rfl, rfl, rfl, rfl, rfl, rfl⟩

theorem accepts_iff (row : OpRow) (w : Word) : row.accepts w = true ↔ w &&& row.format.mask = row.fixed := beq_iff_eq

/-- A word decodes by a row that accepts it, and is illegal if no row does (R107). -/
theorem decode_cases (w : Word) :
    (∃ row ∈ opcodeMap, row.accepts w = true ∧ decode w = .ok (row.build (rdField w) (rs1Field w) (rs2Field w))) ∨
      ((∀ row ∈ opcodeMap, ¬ row.accepts w = true) ∧ ∃ e, decode w = .error e) := by
  by_cases h : ∃ row ∈ opcodeMap, row.accepts w = true
  · obtain ⟨row, hm, ha⟩ := h
    exact .inl ⟨row, hm, ha, decode_of_accepts hm ha⟩
  · have hnone : ∀ row ∈ opcodeMap, ¬ row.accepts w = true := fun row hm ha => h ⟨row, hm, ha⟩
    refine .inr ⟨hnone, ?_⟩
    simp only [decode, List.find?_eq_none.2 hnone]
    split
    · exact ⟨.fixedBits, rfl⟩
    · exact ⟨.unassignedOpcode, rfl⟩

theorem decode_error_iff (w : Word) :
    (∃ e, decode w = .error e) ↔ ∀ row ∈ opcodeMap, w &&& row.format.mask ≠ row.fixed := by
  simp only [ne_eq, ← accepts_iff]
  obtain ⟨row, hm, ha, hd⟩ | ⟨hnone, he⟩ := decode_cases w
  · exact ⟨fun ⟨e, he⟩ => by simp [hd] at he, fun h => absurd ha (h row hm)⟩
  · exact iff_of_true he hnone

/-! ### Decoding, then encoding -/

/-- A word whose reserved bits are clear is its fields packed together (R101, R103). -/
theorem packFields_fields {w : Word} (h : w.extractLsb' 0 12 = 0) :
    packFields (opField w) (rdField w) (rs1Field w) (rs2Field w) = w := by
  show w.extractLsb' 24 8 ++ w.extractLsb' 20 4 ++ w.extractLsb' 16 4 ++ w.extractLsb' 12 4 ++ 0#12 = w
  rw [show 0#12 = w.extractLsb' 0 12 from h.symm]
  have join (hi lo n m : Nat) (h : hi = lo + m) : w.extractLsb' hi n ++ w.extractLsb' lo m = w.extractLsb' lo (n + m) :=
    BitVec.extractLsb'_append_extractLsb'_eq_extractLsb' h
  rw [join 24 20 8 4 rfl, join 20 16 12 4 rfl, join 16 12 16 4 rfl, join 12 0 20 12 rfl]
  exact BitVec.extractLsb'_eq_self

/-- A row's mask and match compare a word slice by slice (R106). -/
theorem extractLsb'_of_accepts {row : OpRow} {w : Word} (h : row.accepts w = true) (start len : Nat) :
    w.extractLsb' start len &&& row.format.mask.extractLsb' start len = row.fixed.extractLsb' start len := by
  rw [← BitVec.extractLsb'_and, (accepts_iff row w).1 h]

/-- No match sets a bit below the opcode (R106). -/
theorem fixed_below_opcode : ∀ row ∈ opcodeMap, row.fixed.extractLsb' 20 4 = 0 ∧ row.fixed.extractLsb' 16 4 = 0 ∧
    row.fixed.extractLsb' 12 4 = 0 ∧ row.fixed.extractLsb' 0 12 = 0 := by
  decide

/-- Every mask covers the reserved bits, and no match sets one (R103). -/
theorem reserved_of_accepts {row : OpRow} (hm : row ∈ opcodeMap) {w : Word} (h : row.accepts w = true) :
    w.extractLsb' 0 12 = 0 := by
  obtain ⟨-, -, -, hfixed⟩ := fixed_below_opcode row hm
  have hmask : row.format.mask.extractLsb' 0 12 = BitVec.allOnes 12 := by cases row.format <;> rfl
  rw [← hfixed, ← extractLsb'_of_accepts h, hmask, BitVec.and_allOnes]

/-- A field whose four bits are all fixed to 0 names register 0. -/
theorem eq_zero_of_regBits_and {r : Reg} (h : regBits r &&& 15 = 0) : r = 0 := by
  revert r
  decide

/-- A field whose bit 0 is fixed to 0 names a pair. -/
theorem namesPair_of_regBits_and {r : Reg} (h : regBits r &&& 1 = 0) : r.namesPair = true := by
  revert r
  decide

/-- What a format fixes in the three register fields: an unused field is 0 and a pair field even (R102, R104, R105). -/
def FieldsFit (rd rs1 rs2 : Reg) : Format → Prop
  | .S3 => True
  | .S2 => rs2 = 0
  | .S1 => rs1 = 0 ∧ rs2 = 0
  | .C2 => rd = 0
  | .P2 => rd.namesPair = true ∧ rs2 = 0
  | .PP => rd.namesPair = true ∧ rs1.namesPair = true ∧ rs2 = 0
  | .P3 => rd.namesPair = true

/-- The fields of a word that a row accepts fit the row's format. -/
theorem fieldsFit_of_accepts {row : OpRow} (hm : row ∈ opcodeMap) {w : Word} (h : row.accepts w = true) :
    FieldsFit (rdField w) (rs1Field w) (rs2Field w) row.format := by
  obtain ⟨hrd, hrs1, hrs2, -⟩ := fixed_below_opcode row hm
  have hd : regBits (rdField w) &&& row.format.mask.extractLsb' 20 4 = 0 := (extractLsb'_of_accepts h 20 4).trans hrd
  have ha : regBits (rs1Field w) &&& row.format.mask.extractLsb' 16 4 = 0 := (extractLsb'_of_accepts h 16 4).trans hrs1
  have hb : regBits (rs2Field w) &&& row.format.mask.extractLsb' 12 4 = 0 := (extractLsb'_of_accepts h 12 4).trans hrs2
  generalize row.format = format at hd ha hb ⊢
  cases format with
  | S3 => trivial
  | S2 => exact eq_zero_of_regBits_and hb
  | S1 => exact ⟨eq_zero_of_regBits_and ha, eq_zero_of_regBits_and hb⟩
  | C2 => exact eq_zero_of_regBits_and hd
  | P2 => exact ⟨namesPair_of_regBits_and hd, eq_zero_of_regBits_and hb⟩
  | PP => exact ⟨namesPair_of_regBits_and hd, namesPair_of_regBits_and ha, eq_zero_of_regBits_and hb⟩
  | P3 => exact namesPair_of_regBits_and hd

/-- A row turns fields that fit its format into a well-formed command, whose encoding is those fields under the row's
opcode. -/
theorem build_encodes : ∀ row ∈ opcodeMap, ∀ rd rs1 rs2 : Reg, FieldsFit rd rs1 rs2 row.format →
    (row.build rd rs1 rs2).wellFormed = true ∧
      encode (row.build rd rs1 rs2) = packFields (opField row.fixed) rd rs1 rs2 := by
  simp only [opcodeMap, List.forall_mem_cons]
  exact ⟨fun | _, _, _, ⟨rfl, rfl⟩ => ⟨rfl, rfl⟩, -- FLD
    fun | _, _, _, rfl => ⟨rfl, rfl⟩, -- FMOV
    fun _ _ _ _ => ⟨rfl, rfl⟩, -- FADD
    fun _ _ _ _ => ⟨rfl, rfl⟩, -- FSUB
    fun _ _ _ _ => ⟨rfl, rfl⟩, -- FMUL
    fun | _, _, _, rfl => ⟨rfl, rfl⟩, -- FNEG
    fun | _, _, _, rfl => ⟨rfl, rfl⟩, -- FINV
    fun _ _ _ _ => ⟨rfl, rfl⟩, -- FPOW
    fun | _, _, _, rfl => ⟨rfl, rfl⟩, -- FEQ
    fun | _, _, _, rfl => ⟨rfl, rfl⟩, -- FSQRT
    fun | _, _, _, ⟨hd, rfl⟩ => ⟨hd, rfl⟩, -- ELL2
    fun | _, _, _, ⟨hd, ha, rfl⟩ => ⟨Bool.and_eq_true_iff.2 ⟨hd, ha⟩, rfl⟩, -- M2E
    fun _ _ _ hd => ⟨hd, rfl⟩, -- H2F
    fun _ _ _ hd => ⟨hd, rfl⟩, -- H2C
    nofun⟩

/-- Settles O8: some row accepts a legal word, so its fields fit that row's format and `build_encodes` packs them together
again. -/
theorem decodeThenEncode : Obligations.DecodeThenEncode := by
  intro w i hi
  obtain ⟨row, hm, ha, hd⟩ | ⟨-, e, he⟩ := decode_cases w
  · cases hd.symm.trans hi
    have hbuild := build_encodes row hm _ _ _ (fieldsFit_of_accepts hm ha)
    rwa [← opField_of_accepts ha, packFields_fields (reserved_of_accepts hm ha)] at hbuild
  · cases he.symm.trans hi

/-! ### Illegal words and terms -/

/-- Settles O9: the fourteen pairs are the masks and matches of the opcode map; the accepted word waits in the latch, and
the unit's step is `unitStep_illegal`. -/
theorem illegalWords : Obligations.IllegalWords := by
  refine ⟨fun w => ?_, fun s w rest ⟨e, hd⟩ hb hw => ?_⟩
  · exact (decode_error_iff w).trans
      (List.forall_mem_map (l := opcodeMap) (f := fun row => (row.format.mask, row.fixed))
        (P := fun pair => w &&& pair.1 ≠ pair.2)).symm
  · have hunit : step (accept w { s with inputs := .unit :: rest }) =
        .next (raise .illegalCmd 0 (accept w { s with inputs := rest })) :=
      (step_unitNext (s := accept w { s with inputs := .unit :: rest }) ⟨hw.1, rfl⟩).trans (unitStep_illegal rfl hd)
    exact ⟨_, (run_two (step_writesCmd_idle hw hb)).trans hunit, rfl⟩

/-- An odd pair field ends a command with ILLEGAL_CMD (R102). -/
theorem withPairField_notPair {r : Reg} (h : r.namesPair = false) (s : State) (k : Result) :
    withPairField r s k = .next (failed s .illegalCmd 0) :=
  withPairField_odd (by simpa [Reg.namesPair] using h) s k

/-- Settles O11: an ill-formed term has an odd pair field, and pair fields are checked before anything is read. -/
theorem illegalCommandEnds : Obligations.IllegalCommandEnds := by
  refine ⟨fun s e rest h hb hd => ?_, fun s i h => ?_⟩
  · rw [step_unitNext h]
    exact unitStep_illegal (s := { s with inputs := rest }) hb hd
  · cases i with
    | fld _ | fmov _ _ | fadd _ _ _ | fsub _ _ _ | fmul _ _ _ | fneg _ _ | finv _ _ | fpow _ _ _ | feq _ _ | fsqrt _ _ =>
      cases h
    | ell2 d a | h2f d a b | h2c d a b => exact withPairField_notPair h s _
    | m2e d a =>
      cases hd : d.namesPair with
      | false => exact withPairField_notPair hd s _
      | true =>
        have ha : a.namesPair = false := by simpa [Instr.wellFormed, hd] using h
        exact (withPairField_even ((namesPair_iff d).1 hd) s _).trans (withPairField_notPair ha s _)

end Sys2Proof.Proofs
end

section
/-! PROOFS. The words of one opcode, and the transfer commands FLD and FMOV. -/

namespace Sys2Proof.Proofs

open Sys2Proof.Machine Sys2Proof.Laws Sys2Proof.Spec

/-! ### The words of one opcode -/

/-- Words with a row's opcode are that row's command, or malformed where the fixed bits are wrong (R106, R107). -/
theorem encodedAs_row {row : OpRow} (hm : row ∈ opcodeMap) :
    EncodedAs (opField row.fixed) row.format.mask row.fixed row.build := fun w =>
  ⟨fun h => decode_of_accepts hm ((accepts_iff row w).2 h),
    fun ho h => decode_of_malformed hm ho (Bool.eq_false_iff.2 (mt (accepts_iff row w).1 h))⟩

/-- The row is named by its place, so that its opcode, mask and match compute to the numerals of a statement. -/
theorem encodedAs_opcodeMap (k : Fin 14) :
    EncodedAs (opField (opcodeMap.get k).fixed) (opcodeMap.get k).format.mask (opcodeMap.get k).fixed
      (opcodeMap.get k).build :=
  encodedAs_row (List.get_mem _ _)

/-! ### Transfer commands -/

theorem commitScalar_eq_wrote (fd : Reg) (v : Nat) (s : State) : commitScalar fd v s = .next (wrote s fd v) := rfl

theorem execFld_canonical {s : State} (h : s.wsnap.toNat < s.build.p) (fd : Reg) :
    execFld fd s = .next (wrote s fd s.wsnap.toNat) :=
  (if_pos h).trans (commitScalar_eq_wrote fd _ s)

theorem execFld_not_canonical {s : State} (h : s.build.p ≤ s.wsnap.toNat) (fd : Reg) :
    execFld fd s = .next (failed s .invalidFieldElement 0) := if_neg (Nat.not_lt.2 h)

theorem execFmov_valid {s : State} {a : Reg} (h : s.isValid a = true) (fd : Reg) :
    execFmov fd a s = .next (wrote s fd (s.elem a)) :=
  (withSource_of_valid h _).trans (commitScalar_eq_wrote fd _ s)

theorem execFmov_invalid {s : State} {a : Reg} (h : s.isValid a = false) (fd : Reg) :
    execFmov fd a s = .next (failed s .uninitialisedOperand 0) := withSource_of_invalid h _

/-- Settles O20: FLD is the first row of the opcode map, and its one check compares the staged value with `p`. -/
theorem fldLoadsCanonicalValue : Obligations.FldLoadsCanonicalValue :=
  ⟨encodedAs_opcodeMap 0, fun _ fd => ⟨fun h => execFld_canonical h fd, fun h => execFld_not_canonical h fd⟩⟩

/-- Settles O21: FMOV is the second row of the opcode map, and its one check is that of its source. -/
theorem fmovCopies : Obligations.FmovCopies :=
  ⟨encodedAs_opcodeMap 1, fun _ fd _ => ⟨fun h => execFmov_valid h fd, fun h => execFmov_invalid h fd⟩⟩

end Sys2Proof.Proofs
end

section
/-! PROOFS. The arithmetic of canonical operands, and the commands of 41_field_arith.md. -/

namespace Sys2Proof.Proofs

open Sys2Proof.Machine Sys2Proof.Laws Sys2Proof.Spec

/-! ### Canonical operands: the case formulas of R140 -/

theorem fadd_canonical {p a b : Nat} (ha : a < p) (hb : b < p) :
    fadd p a b = if p ≤ a + b then a + b - p else a + b := by
  rw [fadd, Nat.add_mod_eq_ite, Nat.mod_eq_of_lt ha, Nat.mod_eq_of_lt hb]

/-- A difference that borrows takes its remainder one `p` higher. -/
theorem fsub_canonical {p a b : Nat} (ha : a < p) (hb : b < p) :
    fsub p a b = if a < b then a + p - b else a - b := by
  rw [fsub]
  split
  · rw [← Int.add_emod_right, Int.emod_eq_of_lt (by omega) (by omega)]
    omega
  · rw [Int.emod_eq_of_lt (by omega) (by omega)]
    omega

theorem fsub_zero_left (p a : Nat) : fsub p 0 a = fneg p a := by simp [fsub, fneg]

theorem fneg_canonical {p a : Nat} (ha : a < p) : fneg p a = if a = 0 then 0 else p - a := by
  rw [← fsub_zero_left, fsub_canonical (by omega) ha]
  split <;> split <;> omega

/-! ### The inverse -/

theorem coprime_of_canonical {p a : Nat} (hp : p.Prime) (h0 : a ≠ 0) (ha : a < p) : a.Coprime p :=
  (Nat.coprime_of_lt_prime h0 ha hp).symm

/-- The value `a ^ (p - 2)` is an inverse, by Fermat's little theorem. -/
theorem mul_finv_mod {p a : Nat} (hp : p.Prime) (h0 : a ≠ 0) (ha : a < p) : a * finv p a % p = 1 := by
  have hexp : p - 2 + 1 = p - 1 := by have := hp.two_le; omega
  calc a * finv p a % p = a * a ^ (p - 2) % p := by rw [finv, fpow_eq, Nat.mul_mod_mod]
    _ = a ^ p.totient % p := by rw [← pow_succ', hexp, Nat.totient_prime hp]
    _ = 1 % p := Nat.ModEq.pow_totient (coprime_of_canonical hp h0 ha)
    _ = 1 := Nat.mod_eq_of_lt hp.one_lt

/-- A canonical value that inverts `a` is the one FINV computes. -/
theorem eq_finv_of_mul_mod {p a y : Nat} (hp : p.Prime) (h0 : a ≠ 0) (ha : a < p) (hy : y < p) (h : a * y % p = 1) :
    y = finv p a := by
  have hmul : a * y ≡ a * finv p a [MOD p] := h.trans (mul_finv_mod hp h0 ha).symm
  exact (hmul.cancel_left_of_coprime (coprime_of_canonical hp h0 ha).symm).eq_of_lt_of_lt hy (finv_lt hp.pos a)

/-! ### What the commands do with valid operands, and with one that is not -/

theorem exec_invalid_source {i : Instr} {a b : Reg} {s : State} (hwf : i.wellFormed = true) (hs : sources i = [a, b])
    (h : s.isValid a = false ∨ s.isValid b = false) : exec i s = .next (failed s .uninitialisedOperand 0) :=
  h.elim (uninitialisedOperand s i a hwf (by simp [hs])) (uninitialisedOperand s i b hwf (by simp [hs]))

theorem binaryOp_valid {a b : Reg} {s : State} (ha : s.isValid a = true) (hb : s.isValid b = true)
    (op : Nat → Nat → Nat → Nat) (fd : Reg) :
    binaryOp op fd a b s = .next (wrote s fd (op s.build.p (s.elem a) (s.elem b))) :=
  (withSources_of_valid ha hb _).trans (commitScalar_eq_wrote fd _ s)

theorem execFneg_valid {a : Reg} {s : State} (h : s.isValid a = true) (fd : Reg) :
    execFneg fd a s = .next (wrote s fd (fneg s.build.p (s.elem a))) :=
  (withSource_of_valid h _).trans (commitScalar_eq_wrote fd _ s)

theorem execFinv_nonzero {a : Reg} {s : State} (h : s.isValid a = true) (h0 : s.elem a ≠ 0) (fd : Reg) :
    execFinv fd a s = .next (wrote s fd (finv s.build.p (s.elem a))) :=
  (withSource_of_valid h _).trans <| (if_neg h0).trans (commitScalar_eq_wrote fd _ s)

theorem execFinv_zero {a : Reg} {s : State} (h : s.isValid a = true) (h0 : s.elem a = 0) (fd : Reg) :
    execFinv fd a s = .next (failed s .divByZero 0) := (withSource_of_valid h _).trans (if_pos h0)

theorem execFeq_valid {a b : Reg} {s : State} (ha : s.isValid a = true) (hb : s.isValid b = true) :
    execFeq a b s = .next (committed (withEq s (eqFlag (s.elem a) (s.elem b)))) := withSources_of_valid ha hb _

/-! ### The obligations -/

/-- Settles O22: rows 2 to 5 of the opcode map, each committing its operation's value by the case formula of R140. -/
theorem addSubMulNegResults : Obligations.AddSubMulNegResults := by
  refine ⟨encodedAs_opcodeMap 2, encodedAs_opcodeMap 3, encodedAs_opcodeMap 4, encodedAs_opcodeMap 5,
    fun s fd a b hva hvb ha hb => ⟨?add, ?sub, ?mul⟩, fun s fd a hv ha => ?neg,
    fun s fd a b h => ⟨exec_invalid_source rfl rfl h, exec_invalid_source rfl rfl h, exec_invalid_source rfl rfl h⟩,
    fun s fd a => uninitialisedOperand s _ a rfl (List.mem_singleton_self a)⟩
  case add =>
    rw [← fadd_canonical ha hb]
    exact binaryOp_valid hva hvb fadd fd
  case sub =>
    rw [← fsub_canonical ha hb]
    exact binaryOp_valid hva hvb fsub fd
  case mul => exact binaryOp_valid hva hvb fmul fd
  case neg =>
    rw [← fneg_canonical ha]
    exact execFneg_valid hv fd

/-- Settles O23: the value FINV writes is an inverse by Fermat's little theorem, and `p` prime allows no other. -/
theorem finvWritesTheInverse : Obligations.FinvWritesTheInverse := by
  refine ⟨encodedAs_opcodeMap 6, fun s fd a => ⟨fun hv ha h0 => ?_, fun hv h0 => execFinv_zero hv h0 fd,
    uninitialisedOperand s _ a rfl (List.mem_singleton_self a)⟩⟩
  have hp := s.build.valid.prime
  exact ⟨finv s.build.p (s.elem a), finv_lt hp.pos _, mul_finv_mod hp h0 ha,
    fun y hy h => eq_finv_of_mul_mod hp h0 ha hy h, execFinv_nonzero hv h0 fd⟩

/-- Settles O24: square-and-multiply computes the power. -/
theorem fpowWritesThePower : Obligations.FpowWritesThePower := by
  refine ⟨encodedAs_opcodeMap 7, fun s fd a b => ⟨fun ha hb => ?_, exec_invalid_source rfl rfl⟩⟩
  rw [← fpow_eq]
  exact binaryOp_valid ha hb fpow fd

/-- Settles O25: the comparison of the two values is the flag committed. -/
theorem feqSetsEq : Obligations.FeqSetsEq := by
  refine ⟨encodedAs_opcodeMap 8, fun s a b =>
    ⟨fun ha hb h => ?equal, fun ha hb h => ?distinct, exec_invalid_source rfl rfl⟩⟩
  case equal =>
    rw [← show eqFlag (s.elem a) (s.elem b) = true from beq_iff_eq.2 h]
    exact execFeq_valid ha hb
  case distinct =>
    rw [← show eqFlag (s.elem a) (s.elem b) = false from beq_false_of_ne h]
    exact execFeq_valid ha hb

end Sys2Proof.Proofs
end

section
/-! PROOFS. The Tonelli–Shanks loop of 42_sqrt.md finds the square root that is at most `(p - 1) / 2`, in every valid
build. -/

namespace Sys2Proof.Proofs

open Sys2Proof.Machine Sys2Proof.Laws Sys2Proof.Spec

/-! ### Canonical values and their classes modulo `p` -/

theorem cast_inj_of_lt {p a b : Nat} (ha : a < p) (hb : b < p) : (a : ZMod p) = b ↔ a = b := by
  rw [ZMod.natCast_eq_natCast_iff', Nat.mod_eq_of_lt ha, Nat.mod_eq_of_lt hb]

theorem cast_eq_one_iff {p a : Nat} (hp : 1 < p) (ha : a < p) : (a : ZMod p) = 1 ↔ a = 1 := by
  rw [← Nat.cast_one, cast_inj_of_lt ha hp]

theorem fpow_eq_one_iff {p : Nat} (hp : 1 < p) (a e : Nat) : fpow p a e = 1 ↔ (a : ZMod p) ^ e = 1 := by
  rw [← cast_fpow, cast_eq_one_iff hp (fpow_lt (by omega) a e)]

theorem mul_self_mod_eq_iff {p n : Nat} (hn : n < p) (y : Nat) : y * y % p = n ↔ (y : ZMod p) ^ 2 = n := by
  rw [← cast_inj_of_lt (Nat.mod_lt _ (by omega)) hn, ZMod.natCast_mod, Nat.cast_mul, sq]

theorem odd_p (b : Build) : b.p % 2 = 1 := by
  have h5 := b.valid.five_le
  exact b.valid.prime.eq_two_or_odd.resolve_left (by omega)

/-! ### The loop -/

theorem pow_two_pow_eq_one_of_le {M : Type} [Monoid M] {x : M} {m i : Nat} (h : x ^ 2 ^ m = 1) (hle : m ≤ i) :
    x ^ 2 ^ i = 1 :=
  orderOf_dvd_iff_pow_eq_one.1 ((orderOf_dvd_of_pow_eq_one h).trans (pow_dvd_pow 2 hle))

/-- What holds before each round of the loop of R170, entered with the value `m + 1` for its `m`: `r² = n·t`, and `t`
has an order that divides `2 ^ m` where `c` has one that does not. -/
structure TonelliInv (p n m c t r : Nat) : Prop where
  t_lt : t < p
  c_pow : (c : ZMod p) ^ 2 ^ m = -1
  t_pow : (t : ZMod p) ^ 2 ^ m = 1
  r_sq : (r : ZMod p) ^ 2 = n * t

section Loop

variable {p : Nat} [hp : Fact p.Prime]

/-- A square root of 1 that is not 1 is `-1`. -/
theorem pow_two_pow_eq_neg_one {x : ZMod p} {i : Nat} (hne : x ^ 2 ^ i ≠ 1) (h : x ^ 2 ^ (i + 1) = 1) :
    x ^ 2 ^ i = -1 := by
  rw [pow_succ, pow_mul] at h
  exact (sq_eq_one_iff.1 h).resolve_left hne

/-- The search from candidate `i + 1` stops at the exponent where the repeated squares of `x` first reach 1. -/
theorem leastSquarings_spec {x : ZMod p} {m : Nat} (hm : x ^ 2 ^ m = 1) : ∀ {fuel i tt : Nat}, m ≤ i + fuel →
    tt < p → (tt : ZMod p) = x ^ 2 ^ (i + 1) → x ^ 2 ^ i ≠ 1 →
    ∃ j, leastSquarings p fuel (i + 1) tt = j + 1 ∧ x ^ 2 ^ j ≠ 1 ∧ x ^ 2 ^ (j + 1) = 1
  | 0, i, tt, hfuel, _, _, hi => absurd (pow_two_pow_eq_one_of_le hm hfuel) hi
  | fuel + 1, i, tt, hfuel, hlt, htt, hi => by
    have hone : tt = 1 ↔ x ^ 2 ^ (i + 1) = 1 := by rw [← htt, cast_eq_one_iff hp.out.one_lt hlt]
    rw [leastSquarings]
    split
    · next h => exact ⟨i, rfl, hi, hone.1 h⟩
    · next h =>
      refine leastSquarings_spec hm (by omega) (fmul_lt hp.out.pos tt tt) ?_ (mt hone.2 h)
      rw [cast_fmul, htt, ← sq, ← pow_mul, ← pow_succ]

variable {n m c t r : Nat}

/-- While `t ≠ 1`, the search finds an exponent below the loop's `m`, and the power of `t` before it is `-1`. -/
theorem TonelliInv.exists_leastSquarings (h : TonelliInv p n m c t r) (ht : t ≠ 1) :
    ∃ j < m, leastSquarings p (m + 1) 1 (fmul p t t) = j + 1 ∧ (t : ZMod p) ^ 2 ^ j = -1 := by
  have ht0 : (t : ZMod p) ^ 2 ^ 0 ≠ 1 := by rwa [pow_zero, pow_one, Ne, cast_eq_one_iff hp.out.one_lt h.t_lt]
  obtain ⟨j, hj, hne, hone⟩ := leastSquarings_spec (fuel := m + 1) (i := 0) h.t_pow (by omega)
    (fmul_lt hp.out.pos t t) (by rw [cast_fmul, zero_add, pow_one, sq]) ht0
  have hjm : j < m := Nat.lt_of_not_le fun hle => hne (pow_two_pow_eq_one_of_le h.t_pow hle)
  exact ⟨j, hjm, hj, pow_two_pow_eq_neg_one hne hone⟩

/-- The updates of one round: `t·b²` has an order that divides `2 ^ j`, as a product of two values whose power is
`-1`. -/
theorem TonelliInv.next (h : TonelliInv p n m c t r) {j b : Nat} (ht : (t : ZMod p) ^ 2 ^ j = -1)
    (hb : (b : ZMod p) ^ 2 ^ (j + 1) = -1) :
    TonelliInv p n j (fmul p b b) (fmul p t (fmul p b b)) (fmul p r b) := by
  have hc : ((fmul p b b : Nat) : ZMod p) ^ 2 ^ j = -1 := by rw [cast_fmul, ← sq, ← pow_mul, ← pow_succ', hb]
  refine ⟨fmul_lt hp.out.pos _ _, hc, ?t_pow, ?r_sq⟩
  case t_pow => rw [cast_fmul, mul_pow, ht, hc, neg_mul_neg, one_mul]
  case r_sq => rw [cast_fmul, cast_fmul, cast_fmul, mul_pow, h.r_sq, ← sq, mul_assoc]

/-- The loop ends with a square root of `n`: its `m` falls with every round, and at `m = 0` the invariant has
`t = 1`. -/
theorem tonelliLoop_sq : ∀ {fuel m c t r : Nat}, m ≤ fuel → TonelliInv p n m c t r →
    (tonelliLoop p fuel (m + 1) c t r : ZMod p) ^ 2 = n
  | 0, m, c, t, r, hfuel, h => by
    obtain rfl : m = 0 := by omega
    rw [tonelliLoop, h.r_sq, show (t : ZMod p) = 1 by simpa using h.t_pow, mul_one]
  | fuel + 1, m, c, t, r, hfuel, h => by
    rw [tonelliLoop]
    split
    · next ht => rw [h.r_sq, ht, Nat.cast_one, mul_one]
    · next ht =>
      obtain ⟨j, hjm, hj, htj⟩ := h.exists_leastSquarings ht
      have hb : (fpow p c (2 ^ (m + 1 - (j + 1) - 1)) : ZMod p) ^ 2 ^ (j + 1) = -1 := by
        rw [cast_fpow, ← pow_mul, ← pow_add, show m + 1 - (j + 1) - 1 + (j + 1) = m by omega, h.c_pow]
      simp only [hj]
      exact tonelliLoop_sq (by omega) (h.next htj hb)

end Loop

/-! ### The loop's start in a valid build -/

/-- `p` is odd, so `s` is positive, and `HALF` has the same odd part as `p - 1`. -/
theorem half_eq_two_pow_mul (b : Build) :
    ∃ m, twoAdicity b.p = m + 1 ∧ half b.p = 2 ^ m * oddPart b.p ∧ oddPart b.p % 2 = 1 := by
  obtain ⟨q, hq, hodd⟩ := twoAdicity_spec b
  have hpart : oddPart b.p = q := by rw [oddPart, hq, Nat.mul_div_cancel_left q (Nat.two_pow_pos _)]
  have hp := odd_p b
  cases hs : twoAdicity b.p with
  | zero => rw [hs, pow_zero, one_mul] at hq; omega
  | succ m =>
    rw [hs, pow_succ', mul_assoc] at hq
    exact ⟨m, rfl, by rw [half, hq, hpart, Nat.mul_div_cancel_left _ two_pos], by rw [hpart, hodd]⟩

/-- `cTS` has order exactly `2 ^ s` (R6), so the power before is the other square root of 1. -/
theorem cTS_pow (b : Build) {m : Nat} (hm : twoAdicity b.p = m + 1) : (b.cTS : ZMod b.p) ^ 2 ^ m = -1 := by
  have hp : Fact b.p.Prime := ⟨b.valid.prime⟩
  have hone := (fpow_eq_one_iff hp.out.one_lt _ _).1 b.valid.cTS_order
  have hne := mt (fpow_eq_one_iff hp.out.one_lt _ _).2 b.valid.cTS_order_exact
  rw [hm] at hone hne
  exact pow_two_pow_eq_neg_one hne hone

/-- The values the loop starts from (R170) meet its invariant when `n` has passed the residuosity test. -/
theorem tonelliInv_start (b : Build) {n : Nat} (hn : fpow b.p n (half b.p) = 1) : ∃ m, twoAdicity b.p = m + 1 ∧
    TonelliInv b.p n m b.cTS (fpow b.p n (oddPart b.p)) (fpow b.p n ((oddPart b.p + 1) / 2)) := by
  obtain ⟨m, hm, hhalf, hodd⟩ := half_eq_two_pow_mul b
  refine ⟨m, hm, fpow_lt (Build.p_pos b) _ _, cTS_pow b hm, ?t_pow, ?r_sq⟩
  case t_pow => rw [cast_fpow, ← pow_mul, mul_comm, ← hhalf, (fpow_eq_one_iff b.valid.prime.one_lt _ _).1 hn]
  case r_sq => rw [cast_fpow, cast_fpow, ← pow_mul, ← pow_succ', Nat.div_mul_cancel (by omega)]

/-! ### The normalised root -/

theorem normaliseRoot_le {p r : Nat} (hp : p % 2 = 1) (hr : r < p) : normaliseRoot p r ≤ half p := by
  rw [normaliseRoot, fneg_canonical hr, half]
  split
  · split <;> omega
  · omega

theorem normaliseRoot_sq {p : Nat} (hp : 0 < p) (r : Nat) : (normaliseRoot p r : ZMod p) ^ 2 = (r : ZMod p) ^ 2 := by
  rw [normaliseRoot]
  split
  · rw [cast_fneg hp, neg_sq]
  · rfl

/-- Of the two roots `y` and `p - y` of a square only one is at most `HALF`. -/
theorem eq_of_le_half_of_sq_eq {p y y' : Nat} (hp : p.Prime) (hy : y ≤ half p) (hy' : y' ≤ half p)
    (h : (y : ZMod p) ^ 2 = (y' : ZMod p) ^ 2) : y = y' := by
  have : Fact p.Prime := ⟨hp⟩
  have h2 := hp.two_le
  rw [half] at hy hy'
  obtain heq | hneg := sq_eq_sq_iff_eq_or_eq_neg.1 h
  · exact (cast_inj_of_lt (by omega) (by omega)).1 heq
  · have hsum : ((y + y' : Nat) : ZMod p) = (0 : Nat) := by rw [Nat.cast_add, hneg, neg_add_cancel, Nat.cast_zero]
    have := (cast_inj_of_lt (by omega) (by omega)).1 hsum
    omega

/-! ### `SqrtTS` is the closed form of R172 -/

/-- A nonzero square passes the residuosity test, by Fermat's little theorem. -/
theorem fpow_half_of_sq {p n y : Nat} (hp : p.Prime) (hodd : p % 2 = 1) (hn : (n : ZMod p) ≠ 0)
    (h : (y : ZMod p) ^ 2 = n) : fpow p n (half p) = 1 := by
  have : Fact p.Prime := ⟨hp⟩
  have hy : (y : ZMod p) ≠ 0 := fun h0 => hn (by rw [← h, h0, zero_pow two_ne_zero])
  rw [fpow_eq_one_iff hp.one_lt, ← h, ← pow_mul, half, Nat.mul_div_cancel' (by omega),
    ZMod.pow_card_sub_one_eq_one hy]

/-- What `SqrtTS` answers is a root, and at most `HALF`. -/
theorem sqrtTS_root {b : Build} {n y : Nat} (h : sqrtTS b.toParams n = some y) :
    y ≤ half b.p ∧ (y : ZMod b.p) ^ 2 = n := by
  have hp : Fact b.p.Prime := ⟨b.valid.prime⟩
  rw [sqrtTS] at h
  split at h
  · next h0 =>
    cases h
    exact ⟨Nat.zero_le _, by rw [h0, Nat.cast_zero, zero_pow two_ne_zero]⟩
  · split at h
    · cases h
    · next htest =>
      obtain ⟨m, hm, hinv⟩ := tonelliInv_start b (not_not.1 htest)
      cases h
      refine ⟨normaliseRoot_le (odd_p b) (tonelliLoop_lt hp.out.pos _ _ _ _ _ (fpow_lt hp.out.pos _ _)), ?_⟩
      rw [normaliseRoot_sq hp.out.pos, hm, tonelliLoop_sq (Nat.le_succ m) hinv]

/-- `SqrtTS` answers "no root" of no square. -/
theorem sqrtTS_ne_none {b : Build} {n y : Nat} (hn : n < b.p) (h : (y : ZMod b.p) ^ 2 = n) :
    sqrtTS b.toParams n ≠ none := by
  rw [sqrtTS]
  split
  · exact Option.some_ne_none _
  · next h0 =>
    have hn0 : (n : ZMod b.p) ≠ 0 := by rwa [Ne, ← Nat.cast_zero, cast_inj_of_lt hn (Build.p_pos b)]
    rw [if_neg (not_not.2 (fpow_half_of_sq b.valid.prime (odd_p b) hn0 h))]
    exact Option.some_ne_none _

theorem sqrtTS_eq_some_iff (b : Build) {n : Nat} (hn : n < b.p) (y : Nat) :
    sqrtTS b.toParams n = some y ↔ y ≤ half b.p ∧ y * y % b.p = n := by
  rw [mul_self_mod_eq_iff hn]
  refine ⟨sqrtTS_root, fun ⟨hy, h⟩ => ?_⟩
  obtain ⟨y', hy'⟩ := Option.ne_none_iff_exists'.1 (sqrtTS_ne_none hn h)
  obtain ⟨hle, hsq⟩ := sqrtTS_root hy'
  rw [hy', eq_of_le_half_of_sq_eq b.valid.prime hle hy (hsq.trans h.symm)]

theorem sqrtTS_eq_none_iff (b : Build) {n : Nat} (hn : n < b.p) :
    sqrtTS b.toParams n = none ↔ ∀ y, y < b.p → y * y % b.p ≠ n := by
  refine ⟨fun h y _ hy => sqrtTS_ne_none hn ((mul_self_mod_eq_iff hn y).1 hy) h, fun h => ?_⟩
  refine Option.eq_none_iff_forall_ne_some.2 fun y hy => h y (sqrtTS_lt (Build.p_pos b) hy) ?_
  exact ((sqrtTS_eq_some_iff b hn y).1 hy).2

/-! ### The command -/

theorem execFsqrt_root {a : Reg} {s : State} {y : Nat} (ha : s.isValid a = true)
    (h : sqrtTS s.build.toParams (s.elem a) = some y) (fd : Reg) :
    execFsqrt fd a s = .next (wrote (withNr s false) fd y) := by
  rw [execFsqrt, withSource_of_valid ha, h]
  rfl

theorem execFsqrt_noRoot {a : Reg} {s : State} (ha : s.isValid a = true)
    (h : sqrtTS s.build.toParams (s.elem a) = none) (fd : Reg) :
    execFsqrt fd a s = .next (committed (withNr s true)) := by
  rw [execFsqrt, withSource_of_valid ha, h]
  rfl

/-- Settles O26: the loop's invariant gives a root, which normalised is the only one up to `HALF`, and the residuosity
test passes every square. -/
theorem fsqrtFindsTheSmallRoot : Obligations.FsqrtFindsTheSmallRoot := by
  refine ⟨encodedAs_opcodeMap 9, fun s fd a => ⟨fun ha hn => ⟨fun y hy h => ?root, fun h => ?noRoot⟩,
    uninitialisedOperand s _ a rfl (List.mem_singleton_self a)⟩⟩
  case root => exact execFsqrt_root ha ((sqrtTS_eq_some_iff s.build hn y).2 ⟨hy, h⟩) fd
  case noRoot => exact execFsqrt_noRoot ha ((sqrtTS_eq_none_iff s.build hn).2 h) fd

end Sys2Proof.Proofs
end

section
/-! PROOFS. The Elligator2 map of 43_elligator2.md: its intermediates in `ZMod p`, its branches, and the argument that
it fails only in the exceptional case. -/

namespace Sys2Proof.Proofs

open Sys2Proof.Machine Sys2Proof.Laws Sys2Proof.Spec

/-! ### Values modulo `p`, and the curve's right-hand side -/

theorem mod_eq_zero_iff_cast (n p : Nat) : n % p = 0 ↔ (n : ZMod p) = 0 := by
  rw [ZMod.natCast_eq_zero_iff, Nat.dvd_iff_mod_eq_zero]

theorem g_lt (b : Build) (x : Nat) : g b.toParams x < b.p := Nat.mod_lt _ (Build.p_pos b)

theorem cast_g (c : Params) (x : Nat) : (g c x : ZMod c.p) = x ^ 3 + c.J * x ^ 2 + x := by
  simp only [g, ZMod.natCast_mod, Nat.cast_add, Nat.cast_mul]
  ring

/-- The formula of R190 is the one of R16. -/
theorem curveRhs_eq_g (b : Build) (x : Nat) : curveRhs b.p b.J x = g b.toParams x := by
  rw [← cast_inj_of_lt (curveRhs_lt (Build.p_pos b) b.J x) (g_lt b x), cast_g]
  simp only [curveRhs, cast_fadd, cast_fmul]
  ring

/-! ### The intermediates of R190 -/

/-- The test of R15 and the root of R170 agree on what a square is. -/
theorem sqrtTS_eq_none_iff_isSquare (c : Params) (n : Nat) : sqrtTS c n = none ↔ isSquare c.p n = false := by
  rw [sqrtTS]
  split
  · next h => simp [isSquare, h]
  · next h => split <;> next htest => simp [isSquare, h, htest]

theorem not_isSquare_of_sqrtTS_none {b : Build} {n : Nat} (hn : n < b.p) (h : sqrtTS b.toParams n = none) :
    ¬IsSquare (n : ZMod b.p) := by
  have : NeZero b.p := ⟨(Build.p_pos b).ne'⟩
  rintro ⟨y, hy⟩
  exact sqrtTS_ne_none (y := y.val) hn (by rw [ZMod.natCast_zmod_val, sq, hy]) h

/-- `z` is a non-residue (R6). -/
theorem z_not_isSquare (b : Build) : ¬IsSquare (b.z : ZMod b.p) :=
  not_isSquare_of_sqrtTS_none b.valid.z_lt ((sqrtTS_eq_none_iff_isSquare b.toParams b.z).2 b.valid.z_nonresidue)

theorem z_ne_zero (b : Build) : b.z ≠ 0 := fun h => z_not_isSquare b (by rw [h, Nat.cast_zero]; exact IsSquare.zero)

/-- The denominator of R190 step 2, the substitute of R191 where that is 0, without reducing in between. -/
theorem safeDenom_eq (c : Params) (u : Nat) : safeDenom c u =
    if (1 + c.z * (u * u)) % c.p = 0 then c.z else (1 + c.z * (u * u)) % c.p := by
  simp only [safeDenom, fadd, fmul, Nat.mul_mod_mod, Nat.add_mod_mod]

theorem safeDenom_lt (b : Build) (u : Nat) : safeDenom b.toParams u < b.p := by
  rw [safeDenom_eq]
  split
  · exact b.valid.z_lt
  · exact Nat.mod_lt _ (Build.p_pos b)

theorem safeDenom_ne_zero (b : Build) (u : Nat) : safeDenom b.toParams u ≠ 0 := by
  rw [safeDenom_eq]
  split
  · exact z_ne_zero b
  · assumption

theorem cast_safeDenom {b : Build} {u : Nat} (h : (1 + b.z * (u * u)) % b.p ≠ 0) :
    (safeDenom b.toParams u : ZMod b.p) = 1 + b.z * (u : ZMod b.p) ^ 2 := by
  rw [safeDenom_eq, if_neg h, ZMod.natCast_mod]
  push_cast
  ring

theorem mapX1_lt (b : Build) (u : Nat) : mapX1 b.toParams u < b.p := fmul_lt (Build.p_pos b) _ _

theorem mapX2_lt (b : Build) (u : Nat) : mapX2 b.toParams u < b.p := fsub_lt (Build.p_pos b) _ _

/-- `x1 · safe = -J`. -/
theorem mapX1_mul_safeDenom (b : Build) (u : Nat) :
    (mapX1 b.toParams u : ZMod b.p) * safeDenom b.toParams u = -b.J := by
  have hinv : (safeDenom b.toParams u : ZMod b.p) * finv b.p (safeDenom b.toParams u) = 1 := by
    rw [← Nat.cast_mul, ← ZMod.natCast_mod,
      mul_finv_mod b.valid.prime (safeDenom_ne_zero b u) (safeDenom_lt b u), Nat.cast_one]
  rw [mapX1, cast_fmul, cast_fneg (Build.p_pos b)]
  linear_combination (-(b.J : ZMod b.p)) * hinv

/-- `x2 = -x1 - J`. -/
theorem cast_mapX2 (b : Build) (u : Nat) :
    (mapX2 b.toParams u : ZMod b.p) = -(mapX1 b.toParams u) - b.J := by
  rw [mapX2, cast_fsub (Build.p_pos b), cast_fneg (Build.p_pos b)]

/-! ### The parity of a root -/

/-- The numbers below `p` with the square of `r` are `r` and `p - r`. -/
theorem sq_eq_sq_iff_of_lt {p y r : Nat} (hp : p.Prime) (hy : y < p) (hr : r < p) :
    (y : ZMod p) ^ 2 = (r : ZMod p) ^ 2 ↔ y = r ∨ y + r = p := by
  have : Fact p.Prime := ⟨hp⟩
  rw [sq_eq_sq_iff_eq_or_eq_neg, cast_inj_of_lt hy hr, ← add_eq_zero_iff_eq_neg, ← Nat.cast_add,
    ZMod.natCast_eq_zero_iff]
  refine ⟨?_, Or.imp_right (dvd_of_eq ·.symm)⟩
  rintro (heq | hdvd)
  · exact .inl heq
  · by_cases h0 : y + r = 0
    · exact .inl (by omega)
    · exact .inr (Nat.eq_of_dvd_of_lt_two_mul h0 hdvd (by omega))

theorem forceOdd_eq_iff {p r : Nat} (hp : p.Prime) (hodd : p % 2 = 1) (hr : r < p) (y : Nat) :
    forceOdd p r = y ↔ y < p ∧ (y : ZMod p) ^ 2 = (r : ZMod p) ^ 2 ∧ (y % 2 = 1 ∨ y = 0) := by
  rw [and_congr_right fun hy => and_congr_left' (sq_eq_sq_iff_of_lt hp hy hr), forceOdd, fneg_canonical hr]
  simp only [isOdd, beq_iff_eq]
  split_ifs <;> omega

theorem forceEven_eq_iff {p r : Nat} (hp : p.Prime) (hodd : p % 2 = 1) (hr : r < p) (y : Nat) :
    forceEven p r = y ↔ y < p ∧ (y : ZMod p) ^ 2 = (r : ZMod p) ^ 2 ∧ y % 2 = 0 := by
  rw [and_congr_right fun hy => and_congr_left' (sq_eq_sq_iff_of_lt hp hy hr), forceEven, fneg_canonical hr]
  simp only [isOdd, beq_iff_eq]
  split_ifs <;> omega

/-- The first branch's `y` for a root of `n` is the odd root of `n`, or 0 (R192). -/
theorem forceOdd_root_eq_iff {b : Build} {n r : Nat} (h : sqrtTS b.toParams n = some r) (hn : n < b.p) (y : Nat) :
    forceOdd b.p r = y ↔ y < b.p ∧ y * y % b.p = n ∧ (y % 2 = 1 ∨ y = 0) := by
  rw [mul_self_mod_eq_iff hn, ← (sqrtTS_root h).2]
  exact forceOdd_eq_iff b.valid.prime (odd_p b) (sqrtTS_lt (Build.p_pos b) h) y

/-- The second branch's `y` for a root of `n` is the even root of `n` (R193). -/
theorem forceEven_root_eq_iff {b : Build} {n r : Nat} (h : sqrtTS b.toParams n = some r) (hn : n < b.p) (y : Nat) :
    forceEven b.p r = y ↔ y < b.p ∧ y * y % b.p = n ∧ y % 2 = 0 := by
  rw [mul_self_mod_eq_iff hn, ← (sqrtTS_root h).2]
  exact forceEven_eq_iff b.valid.prime (odd_p b) (sqrtTS_lt (Build.p_pos b) h) y

/-! ### The branches of the map -/

theorem ell2Map_of_root {b : Build} {u r : Nat} (h : sqrtTS b.toParams (g b.toParams (mapX1 b.toParams u)) = some r) :
    ell2Map b.toParams u = some ⟨⟨mapX1 b.toParams u, forceOdd b.p r⟩, false⟩ := by
  rw [ell2Map, curveRhs_eq_g, h]

theorem ell2Map_of_noRoot_root {b : Build} {u r : Nat}
    (h1 : sqrtTS b.toParams (g b.toParams (mapX1 b.toParams u)) = none)
    (h2 : sqrtTS b.toParams (g b.toParams (mapX2 b.toParams u)) = some r) :
    ell2Map b.toParams u = some ⟨⟨mapX2 b.toParams u, forceEven b.p r⟩, true⟩ := by
  rw [ell2Map, curveRhs_eq_g, h1, curveRhs_eq_g, h2]

theorem ell2Map_eq_none_iff (b : Build) (u : Nat) : ell2Map b.toParams u = none ↔
    sqrtTS b.toParams (g b.toParams (mapX1 b.toParams u)) = none ∧
      sqrtTS b.toParams (g b.toParams (mapX2 b.toParams u)) = none := by
  rw [ell2Map, curveRhs_eq_g, curveRhs_eq_g]
  cases sqrtTS b.toParams (g b.toParams (mapX1 b.toParams u)) with
  | some r => simp
  | none => cases sqrtTS b.toParams (g b.toParams (mapX2 b.toParams u)) <;> simp

/-- R192: an odd root, or the root 0, of `g(x1)` is the map's `y`. -/
theorem ell2Map_eq_first {b : Build} {u y : Nat} (hy : y < b.p)
    (hsq : y * y % b.p = g b.toParams (mapX1 b.toParams u)) (hpar : y % 2 = 1 ∨ y = 0) :
    ell2Map b.toParams u = some ⟨⟨mapX1 b.toParams u, y⟩, false⟩ := by
  have hn := g_lt b (mapX1 b.toParams u)
  obtain ⟨r, hr⟩ := Option.ne_none_iff_exists'.1 (sqrtTS_ne_none hn ((mul_self_mod_eq_iff hn y).1 hsq))
  rw [ell2Map_of_root hr, (forceOdd_root_eq_iff hr hn y).2 ⟨hy, hsq, hpar⟩]

/-- R193: with no root of `g(x1)`, an even root of `g(x2)` is the map's `y`. -/
theorem ell2Map_eq_second {b : Build} {u y : Nat}
    (h1 : ∀ y, y < b.p → y * y % b.p ≠ g b.toParams (mapX1 b.toParams u)) (hy : y < b.p)
    (hsq : y * y % b.p = g b.toParams (mapX2 b.toParams u)) (hpar : y % 2 = 0) :
    ell2Map b.toParams u = some ⟨⟨mapX2 b.toParams u, y⟩, true⟩ := by
  have hn := g_lt b (mapX2 b.toParams u)
  obtain ⟨r, hr⟩ := Option.ne_none_iff_exists'.1 (sqrtTS_ne_none hn ((mul_self_mod_eq_iff hn y).1 hsq))
  rw [ell2Map_of_noRoot_root ((sqrtTS_eq_none_iff b (g_lt b _)).2 h1) hr,
    (forceEven_root_eq_iff hr hn y).2 ⟨hy, hsq, hpar⟩]

/-- R196, items 1 and 2: what the map answers is on the curve, with the parity of its branch. -/
theorem ell2Map_onCurve {b : Build} {u : Nat} {r : MapResult} (h : ell2Map b.toParams u = some r) :
    r.point.y * r.point.y % b.p = g b.toParams r.point.x ∧
      (r.br = false → r.point.y % 2 = 1 ∨ r.point.y = 0) ∧ (r.br = true → r.point.y % 2 = 0) := by
  cases h1 : sqrtTS b.toParams (g b.toParams (mapX1 b.toParams u)) with
  | some r1 =>
    obtain ⟨-, hsq, hpar⟩ := (forceOdd_root_eq_iff h1 (g_lt b _) _).1 rfl
    rw [ell2Map_of_root h1] at h
    cases h
    exact ⟨hsq, fun _ => hpar, nofun⟩
  | none =>
    cases h2 : sqrtTS b.toParams (g b.toParams (mapX2 b.toParams u)) with
    | some r2 =>
      obtain ⟨-, hsq, hpar⟩ := (forceEven_root_eq_iff h2 (g_lt b _) _).1 rfl
      rw [ell2Map_of_noRoot_root h1 h2] at h
      cases h
      exact ⟨hsq, nofun, fun _ => hpar⟩
    | none =>
      rw [(ell2Map_eq_none_iff b u).2 ⟨h1, h2⟩] at h
      cases h

/-! ### When the map fails -/

/-- The identity behind Elligator2 (G10): `x2 = w·x1`, and `x² + J·x + 1` has the same value at `x1` and `x2`. -/
theorem curve_eq_mul_curve {R : Type} [CommRing R] {x1 x2 J w : R} (h1 : x1 * (1 + w) = -J) (h2 : x2 = -x1 - J) :
    x2 ^ 3 + J * x2 ^ 2 + x2 = w * (x1 ^ 3 + J * x1 ^ 2 + x1) := by
  have hprod : x2 = w * x1 := by linear_combination h2 - h1
  linear_combination (x2 ^ 2 - w * x1 ^ 2) * h2 + (1 - x1 * x2) * hprod

/-- Outside the exceptional case `g(x2) = z·u²·g(x1)`. -/
theorem cast_g_mapX2 {b : Build} {u : Nat} (h : (1 + b.z * (u * u)) % b.p ≠ 0) :
    (g b.toParams (mapX2 b.toParams u) : ZMod b.p) =
      b.z * (u : ZMod b.p) ^ 2 * g b.toParams (mapX1 b.toParams u) := by
  rw [cast_g, cast_g]
  exact curve_eq_mul_curve (cast_safeDenom h ▸ mapX1_mul_safeDenom b u) (cast_mapX2 b u)

theorem isSquare_mul_of_not_isSquare {p : Nat} [Fact p.Prime] {a c : ZMod p} (ha : ¬IsSquare a) (hc : ¬IsSquare c) :
    IsSquare (a * c) := by
  by_cases h0 : a * c = 0
  · rw [h0]; exact IsSquare.zero
  · rw [← quadraticChar_one_iff_isSquare h0, map_mul, quadraticChar_neg_one_iff_not_isSquare.2 ha,
      quadraticChar_neg_one_iff_not_isSquare.2 hc, neg_mul_neg, one_mul]

/-- Outside the exceptional case the map has a result: were neither right-hand side a square, `g(x2)` would be the
product of the non-squares `z` and `g(x1)` and of `u²`, and so a square. -/
theorem ell2Map_ne_none {b : Build} {u : Nat} (h : (1 + b.z * (u * u)) % b.p ≠ 0) : ell2Map b.toParams u ≠ none := by
  have : Fact b.p.Prime := ⟨b.valid.prime⟩
  intro hnone
  obtain ⟨h1, h2⟩ := (ell2Map_eq_none_iff b u).1 hnone
  have hg1 := not_isSquare_of_sqrtTS_none (g_lt b _) h1
  refine not_isSquare_of_sqrtTS_none (g_lt b _) h2 ?_
  rw [cast_g_mapX2 h, mul_right_comm]
  exact (isSquare_mul_of_not_isSquare (z_not_isSquare b) hg1).mul (IsSquare.sq _)

/-- The exceptional case makes `-1 / z` a square, so `-1` is none. -/
theorem mod_four_of_exceptional {b : Build} {u : Nat} (h : (1 + b.z * (u * u)) % b.p = 0) : b.p % 4 = 3 := by
  have : Fact b.p.Prime := ⟨b.valid.prime⟩
  have hzu : (b.z : ZMod b.p) * (u : ZMod b.p) ^ 2 = -1 := by
    have hsum := (mod_eq_zero_iff_cast _ _).1 h
    push_cast at hsum
    linear_combination hsum
  have hu : (u : ZMod b.p) ^ 2 ≠ 0 := fun h0 => by simp [h0] at hzu
  by_contra hmod
  have hneg : IsSquare (-1 : ZMod b.p) := ZMod.exists_sq_eq_neg_one_iff.2 hmod
  refine z_not_isSquare b ?_
  rw [eq_div_of_mul_eq hu hzu]
  exact hneg.div (IsSquare.sq _)

/-! ### The map at special inputs -/

/-- The map depends on `u` through the denominator only. -/
theorem ell2Map_congr {c : Params} {u v : Nat} (h : safeDenom c u = safeDenom c v) : ell2Map c u = ell2Map c v := by
  simp only [ell2Map, mapX2, mapX1, h]

theorem fmul_neg_self {p u : Nat} (h : u ≤ p) : fmul p (p - u) (p - u) = fmul p u u := by
  rw [fmul, fmul, ← ZMod.natCast_eq_natCast_iff']
  push_cast [h]
  rw [ZMod.natCast_self, zero_sub, neg_mul_neg]

theorem safeDenom_neg {c : Params} {u : Nat} (h : u ≤ c.p) : safeDenom c (c.p - u) = safeDenom c u := by
  rw [safeDenom, safeDenom, fmul_neg_self h]

theorem safeDenom_zero (b : Build) : safeDenom b.toParams 0 = 1 := by
  simp [safeDenom_eq, Nat.mod_eq_of_lt b.valid.prime.one_lt]

theorem p_sub_J_lt (b : Build) : b.p - b.J < b.p :=
  Nat.sub_lt (Build.p_pos b) (Nat.pos_of_ne_zero b.valid.J_ne_zero)

/-- The canonical representative of `-J`. -/
theorem cast_p_sub_J (b : Build) : ((b.p - b.J : Nat) : ZMod b.p) = -b.J := by
  rw [Nat.cast_sub b.valid.J_lt.le, ZMod.natCast_self, zero_sub]

theorem mapX1_zero (b : Build) : mapX1 b.toParams 0 = b.p - b.J := by
  have h := mapX1_mul_safeDenom b 0
  rw [safeDenom_zero, Nat.cast_one, mul_one, ← cast_p_sub_J] at h
  exact (cast_inj_of_lt (mapX1_lt b 0) (p_sub_J_lt b)).1 h

theorem mapX2_zero (b : Build) : mapX2 b.toParams 0 = 0 := by
  rw [← cast_inj_of_lt (mapX2_lt b 0) (Build.p_pos b), cast_mapX2, mapX1_zero, cast_p_sub_J, neg_neg,
    sub_self, Nat.cast_zero]

theorem g_neg_J (b : Build) : g b.toParams (b.p - b.J) = b.p - b.J := by
  rw [← cast_inj_of_lt (g_lt b _) (p_sub_J_lt b), cast_g, cast_p_sub_J]
  ring

theorem g_zero (c : Params) : g c 0 = 0 := by simp [g]

/-! ### The command -/

theorem exec_ell2_of_some {s : State} {prd a : Reg} {x y : Nat} {br : Bool} (hprd : prd.val % 2 = 0)
    (ha : s.isValid a = true) (h : ell2Map s.build.toParams (s.elem a) = some ⟨⟨x, y⟩, br⟩) :
    exec (.ell2 prd a) s = .next (wrotePair (withBr s br) prd x y) := by
  rw [exec, execEll2, withPairField_even hprd, withSource_of_valid ha, h]
  rfl

theorem exec_ell2_of_none {s : State} {prd a : Reg} (hprd : prd.val % 2 = 0)
    (ha : s.isValid a = true) (h : ell2Map s.build.toParams (s.elem a) = none) :
    exec (.ell2 prd a) s = .next (failed s .noSquareRoot 0) := by
  rw [exec, execEll2, withPairField_even hprd, withSource_of_valid ha, h]
  rfl

/-! ### The obligations -/

/-- Settles O27: ELL2 is row 10 of the opcode map, `safe` is invertible, and a root of either right-hand side is found
and given its branch's parity. -/
theorem ell2MapsByBranch : Obligations.Ell2MapsByBranch := by
  refine ⟨encodedAs_opcodeMap 10, fun s prd a safe hprd ha hsafe => ?_⟩
  obtain rfl := hsafe.trans (safeDenom_eq s.build.toParams (s.elem a)).symm
  refine ⟨_, _, mapX1_lt s.build (s.elem a), mapX2_lt s.build (s.elem a), ?x1, ?x2,
    fun y hy hsq hpar => ?first, fun h1 => ⟨fun y hy hsq hpar => ?second, fun h2 => ?failure⟩⟩
  case x1 =>
    rw [mod_eq_zero_iff_cast, Nat.cast_add, Nat.cast_mul, mapX1_mul_safeDenom, neg_add_cancel]
  case x2 =>
    rw [mod_eq_zero_iff_cast, Nat.cast_add, Nat.cast_add, cast_mapX2]
    ring
  case first => exact exec_ell2_of_some hprd ha (ell2Map_eq_first hy hsq hpar)
  case second => exact exec_ell2_of_some hprd ha (ell2Map_eq_second h1 hy hsq hpar)
  case failure =>
    rw [← sqrtTS_eq_none_iff s.build (g_lt _ _)] at h1 h2
    exact exec_ell2_of_none hprd ha ((ell2Map_eq_none_iff _ _).2 ⟨h1, h2⟩)

/-- Settles O28: outside the exceptional case the map has a result, which is on the curve. -/
theorem ell2CompletesOnTheCurve : Obligations.Ell2CompletesOnTheCurve := by
  intro s prd a hprd ha hdenom
  obtain ⟨⟨⟨x, y⟩, br⟩, h⟩ := Option.ne_none_iff_exists'.1 (ell2Map_ne_none hdenom)
  obtain ⟨hx, hy⟩ := ell2Map_lt (Build.p_pos s.build) h
  exact ⟨x, y, br, exec_ell2_of_some hprd ha h, hx, hy, ell2Map_onCurve h⟩

/-- Settles O29: the contrapositive of `ell2Map_ne_none`, and what the exceptional case says of `p`. -/
theorem ell2FailsOnlyExceptionally : Obligations.Ell2FailsOnlyExceptionally := by
  intro b u h
  have hexc : (1 + b.z * (u * u)) % b.p = 0 := not_not.1 fun hdenom => ell2Map_ne_none hdenom h
  exact ⟨hexc, mod_four_of_exceptional hexc⟩

/-- Settles O30: only `u²` enters the denominator. -/
theorem ell2EvenInItsInput : Obligations.Ell2EvenInItsInput := fun _ _ hu => ell2Map_congr (safeDenom_neg hu.le)

/-- Settles O31: at 0 the denominator is 1, so `x1 = -J` with `g(x1) = -J`, and `x2 = 0`. -/
theorem ell2AtZero : Obligations.Ell2AtZero := by
  intro b
  have hg1 : g b.toParams (mapX1 b.toParams 0) = b.p - b.J := by rw [mapX1_zero, g_neg_J]
  refine ⟨fun y hy hsq hodd => ?root, fun h => ?noRoot⟩
  case root => rw [ell2Map_eq_first hy (hsq.trans hg1.symm) (.inl hodd), mapX1_zero]
  case noRoot =>
    have hg2 : 0 * 0 % b.p = g b.toParams (mapX2 b.toParams 0) := by rw [mapX2_zero, g_zero, Nat.zero_mod]
    rw [ell2Map_eq_second (hg1 ▸ h) (Build.p_pos b) hg2 rfl, mapX2_zero]

end Sys2Proof.Proofs
end

section
/-! PROOFS. The Montgomery-to-Edwards converter of 44_conversion.md: what it answers in `ZMod p`, the command M2E, and
the curve its results lie on. -/

namespace Sys2Proof.Proofs

open Sys2Proof.Machine Sys2Proof.Laws Sys2Proof.Spec

/-! ### The converter -/

/-- The converter rejects the singular points of R210, and no others. -/
theorem montToEd_eq_none_iff (p : Nat) (P : Point) : montToEd p P = none ↔ P.y = 0 ∨ P.x = p - 1 := by
  simp [montToEd, or_iff_not_imp_left]

theorem cast_mul_finv {p a : Nat} (hp : p.Prime) (h0 : a ≠ 0) (ha : a < p) : (a : ZMod p) * finv p a = 1 := by
  rw [← Nat.cast_mul, ← ZMod.natCast_mod, mul_finv_mod hp h0 ha, Nat.cast_one]

/-- R211: both denominators of an accepted point are invertible, and the answer's coordinates are the quotients. -/
theorem montToEd_quotients {p : Nat} {P E : Point} (hp : p.Prime) (hx : P.x < p) (hy : P.y < p)
    (h : montToEd p P = some E) :
    (P.y : ZMod p) ≠ 0 ∧ (P.x + 1 : ZMod p) ≠ 0 ∧
      (E.x : ZMod p) * P.y = P.x ∧ (E.y : ZMod p) * (P.x + 1) = P.x - 1 := by
  have : Fact p.Prime := ⟨hp⟩
  obtain ⟨hregular, hE⟩ := Option.ite_none_left_eq_some.1 h
  obtain ⟨hy0, hx1⟩ := not_or.1 hregular
  obtain rfl := Option.some.inj hE
  have hinvY := cast_mul_finv hp hy0 hy
  have hsum : fadd p P.x 1 ≠ 0 := by rw [fadd, Nat.mod_eq_of_lt (by omega)]; exact Nat.succ_ne_zero _
  have hinvX := cast_mul_finv hp hsum (fadd_lt hp.pos _ _)
  rw [cast_fadd, Nat.cast_one] at hinvX
  refine ⟨left_ne_zero_of_mul_eq_one hinvY, left_ne_zero_of_mul_eq_one hinvX, ?_, ?_⟩
  · rw [cast_fmul]
    linear_combination (P.x : ZMod p) * hinvY
  · rw [cast_fmul, cast_fsub hp.pos, Nat.cast_one]
    linear_combination (P.x - 1 : ZMod p) * hinvX

/-! ### The command -/

theorem withPairSource_of_valid {r : Reg} {s : State} (hx : s.isValid r = true) (hy : s.isValid (r + 1) = true)
    (k : Point → Result) : withPairSource r s k = k ⟨s.elem r, s.elem (r + 1)⟩ :=
  withSources_of_valid hx hy _

section ValidPair

variable {s : State} {prd a : Reg} (hprd : prd.val % 2 = 0) (ha : a.val % 2 = 0) (hvx : s.isValid a = true)
  (hvy : s.isValid (a + 1) = true)

include hprd ha hvx hvy

theorem exec_m2e_of_some {E : Point} (h : montToEd s.build.p ⟨s.elem a, s.elem (a + 1)⟩ = some E) :
    exec (.m2e prd a) s = .next (wrotePair s prd E.x E.y) := by
  rw [exec, execM2e, withPairField_even hprd, withPairField_even ha, withPairSource_of_valid hvx hvy, h]
  rfl

theorem exec_m2e_of_none (h : montToEd s.build.p ⟨s.elem a, s.elem (a + 1)⟩ = none) :
    exec (.m2e prd a) s = .next (failed s .singularConversion 0) := by
  rw [exec, execM2e, withPairField_even hprd, withPairField_even ha, withPairSource_of_valid hvx hvy, h]
  rfl

end ValidPair

/-- Settles O32: M2E is row 11 of the opcode map, a point that is not singular has an answer, and `montToEd_quotients`
says what it is. -/
theorem m2eConverts : Obligations.M2eConverts := by
  refine ⟨encodedAs_opcodeMap 11, fun s prd a hprd ha =>
    ⟨fun hvx hvy hx hy => ⟨fun hy0 hx1 => ?regular, fun hsing => ?singular⟩, ?invalid⟩⟩
  case regular =>
    have hp := s.build.valid.prime
    have haccepted : montToEd s.build.p ⟨s.elem a, s.elem (a + 1)⟩ ≠ none :=
      mt (montToEd_eq_none_iff _ _).1 (not_or.2 ⟨hy0, hx1⟩)
    obtain ⟨E, hE⟩ := Option.ne_none_iff_exists'.1 haccepted
    obtain ⟨hEx, hEy⟩ := montToEd_lt hp.pos hE
    obtain ⟨-, -, hqx, hqy⟩ := montToEd_quotients hp hx hy hE
    refine ⟨E.x, E.y, hEx, hEy, ?_, ?_, exec_m2e_of_some hprd ha hvx hvy hE⟩
    · rw [← Nat.mod_eq_of_lt hx, ← ZMod.natCast_eq_natCast_iff', Nat.cast_mul, hqx]
    · rw [← ZMod.natCast_eq_natCast_iff']
      push_cast [hp.one_le]
      rw [hqy, ZMod.natCast_self, zero_sub, sub_eq_add_neg]
  case singular => exact exec_m2e_of_none hprd ha hvx hvy ((montToEd_eq_none_iff _ _).2 hsing)
  case invalid =>
    exact exec_invalid_source (by simp [Instr.wellFormed, namesPair_iff, hprd, ha]) rfl

/-! ### The curve of the results -/

/-- The birational map of G2: clearing the denominators `y²` and `(x + 1)²` of the Edwards equation leaves `4·x` times
the Montgomery equation. -/
theorem edwards_of_montgomery {F : Type} [Field F] {J x y X Y : F} (hy : y ≠ 0) (hx : x + 1 ≠ 0) (hX : X * y = x)
    (hY : Y * (x + 1) = x - 1) (hcurve : y ^ 2 = x ^ 3 + J * x ^ 2 + x) :
    (J + 2) * X ^ 2 + Y ^ 2 = 1 + (J - 2) * X ^ 2 * Y ^ 2 := by
  obtain rfl : X = x / y := eq_div_of_mul_eq hy hX
  obtain rfl : Y = (x - 1) / (x + 1) := eq_div_of_mul_eq hx hY
  field_simp
  linear_combination (-4 * x) * hcurve

/-- Settles O33: in `ZMod p` the premises and the claim are those of `edwards_of_montgomery`. -/
theorem m2eLandsOnEdwardsCurve : Obligations.M2eLandsOnEdwardsCurve := by
  intro b P E hx hy hcurve hE
  have : Fact b.p.Prime := ⟨b.valid.prime⟩
  obtain ⟨hy0, hx0, hqx, hqy⟩ := montToEd_quotients b.valid.prime hx hy hE
  have hmont := (mul_self_mod_eq_iff (g_lt b P.x) P.y).1 hcurve
  rw [cast_g] at hmont
  have hed := edwards_of_montgomery hy0 hx0 hqx hqy hmont
  have hd : ((b.J + b.p - 2 : Nat) : ZMod b.p) = b.J - 2 := by
    rw [Nat.cast_sub (by have := b.valid.five_le; omega), Nat.cast_add, ZMod.natCast_self, add_zero, Nat.cast_ofNat]
  rw [← ZMod.natCast_eq_natCast_iff']
  simp only [Nat.cast_add, Nat.cast_mul, hd, Nat.cast_one, Nat.cast_ofNat]
  linear_combination hed

end Sys2Proof.Proofs
end

section
/-! PROOFS. The hash-to-curve orchestrator of 45_hash_to_curve.md: how a run ends, stage by stage, over ports that
answer, and the commands H2F and H2C. -/

namespace Sys2Proof.Proofs

open Sys2Proof.Machine Sys2Proof.Laws Sys2Proof.Spec

/-! ### Runs in sequence -/

theorem andThen_assoc {α β γ : Type} (r : Run α) (f : α → Run β) (h : β → Run γ) :
    (r.andThen f).andThen h = r.andThen fun a => (f a).andThen h := by
  obtain ⟨reqs, ending⟩ := r
  cases ending with
  | value a =>
    cases hf : (f a).ending <;> simp [Run.andThen, hf]
  | error e stage | waiting => rfl

theorem done_andThen {α β : Type} (a : α) (next : α → Run β) : (Run.done a).andThen next = next a := rfl

theorem andThen_done {α : Type} (r : Run α) : r.andThen Run.done = r := by
  obtain ⟨reqs, ending⟩ := r
  cases ending <;> simp [Run.andThen, Run.done]

/-! ### How a run that continues a command ends, one rule per kind of stage -/

/-- What becomes of a run `r` of a command that has made the requests `reqs` before it. -/
def concludeAfter (reqs : List Request) (prd : Reg) (s : State) (r : Run Point) : Result :=
  concludeRun prd s ⟨reqs ++ r.requests, r.ending⟩

theorem concludeRun_eq_after (prd : Reg) (s : State) (r : Run Point) :
    concludeRun prd s r = concludeAfter [] prd s r := rfl

section Stages

variable (reqs : List Request) (prd : Reg) (s : State) (ports : Ports) (p n : Nat) (stage : Stage)

theorem concludeAfter_done (P : Point) :
    concludeAfter reqs prd s (.done P) = .next (wrotePair { s with requests := reqs } prd P.x P.y) := by
  rw [concludeAfter, Run.done, List.append_nil]
  rfl

theorem concludeAfter_internal {α : Type} (e : ErrCode) (o : Option α) (next : α → Run Point) :
    concludeAfter reqs prd s ((internalStage e stage o).andThen next) =
      match o with
      | none => .next (failed { s with requests := reqs } e stage)
      | some a => concludeAfter reqs prd s (next a) := by
  cases o with
  | none =>
    rw [concludeAfter, internalStage, Run.andThen, List.append_nil]
    rfl
  | some a => rfl

theorem concludeAfter_hash (a b c : Nat) (next : Nat → Run Point) :
    concludeAfter reqs prd s ((hashStage p ⟨ports, none⟩ n stage a b c).andThen next) =
      if p ≤ (ports.hash a b c).toNat then
        .next (failed { s with requests := reqs ++ [.hash a b c] } .externalInvalid stage)
      else concludeAfter (reqs ++ [.hash a b c]) prd s (next (ports.hash a b c).toNat) := by
  split
  · next h =>
    simp only [hashStage, answers_none, if_true, Nat.not_lt.2 h, if_false]
    rfl
  · next h =>
    simp only [hashStage, answers_none, if_true, Nat.not_le.1 h, Run.andThen, concludeAfter, List.append_assoc]

theorem concludeAfter_add (P Q : Point) (next : Point → Run Point) :
    concludeAfter reqs prd s ((addStage p ⟨ports, none⟩ n stage P Q).andThen next) =
      if p ≤ (sum ports P Q).x ∨ p ≤ (sum ports P Q).y then
        .next (failed { s with requests := reqs ++ [.edadd P Q] } .externalInvalid stage)
      else concludeAfter (reqs ++ [.edadd P Q]) prd s (next (sum ports P Q)) := by
  have hcanonical : ((ports.edadd P Q).1.toNat < p ∧ (ports.edadd P Q).2.toNat < p) ↔
      ¬ (p ≤ (sum ports P Q).x ∨ p ≤ (sum ports P Q).y) := by
    rw [not_or, Nat.not_le, Nat.not_le]
    rfl
  split
  · next h =>
    simp only [addStage, answers_none, if_true, hcanonical, h, not_true, if_false]
    rfl
  · next h =>
    simp only [addStage, answers_none, if_true, hcanonical, h, not_false_iff, Run.andThen, concludeAfter,
      List.append_assoc]
    rfl

end Stages

/-! ### The two computations, over ports that answer -/

/-- R223: two stages on the hash port, the second asking with the first answer. -/
theorem concludeRun_hashToField (ports : Ports) (prd : Reg) (s : State) (m d : Nat) :
    concludeRun prd s (hashToField s.build.p ⟨ports, none⟩ m d).asPair = .next (afterH2f ports s prd m d) := by
  simp only [concludeRun_eq_after, Run.asPair, hashToField, andThen_assoc, done_andThen, concludeAfter_hash,
    concludeAfter_done, afterH2f, apply_ite Host.Outcome.next, List.nil_append, List.cons_append]

/-- R225: the ten stages in order. -/
theorem concludeRun_hashToCurve (ports : Ports) (prd : Reg) (s : State) (m d : Nat) :
    concludeRun prd s (hashToCurve s.build.toParams ⟨ports, none⟩ m d) = .next (afterH2c ports s prd m d) := by
  rw [concludeRun_eq_after, ← andThen_done (hashToCurve _ _ _ _)]
  simp only [hashToCurve, hashToField, andThen_assoc, done_andThen, concludeAfter_hash, concludeAfter_internal,
    concludeAfter_add, concludeAfter_done, afterH2c, apply_ite Host.Outcome.next, List.nil_append, List.cons_append]
  generalize (ports.hash m 0 d).toNat = h1
  generalize (ports.hash h1 1 d).toNat = h2
  cases ell2Map s.build.toParams h1 with
  | none => rfl
  | some M1 =>
    cases ell2Map s.build.toParams h2 with
    | none => rfl
    | some M2 =>
      dsimp only
      cases montToEd s.build.p M1.point with
      | none => rfl
      | some E1 =>
        cases montToEd s.build.p M2.point with
        | none => rfl
        | some E2 => simp only [apply_ite Host.Outcome.next]

/-! ### The commands -/

section Operands

variable {s : State} {prd a b : Reg} (hprd : prd.val % 2 = 0) (ha : s.isValid a = true) (hb : s.isValid b = true)

include hprd ha hb

theorem h2fOver_valid (ports : Ports) :
    h2fOver ports prd a b s =
      concludeRun prd s (hashToField s.build.p ⟨ports, answerLimit s⟩ (s.elem a) (s.elem b)).asPair :=
  (withPairField_even hprd s _).trans (withSources_of_valid ha hb _)

theorem h2cOver_valid (ports : Ports) :
    h2cOver ports prd a b s =
      concludeRun prd s (hashToCurve s.build.toParams ⟨ports, answerLimit s⟩ (s.elem a) (s.elem b)) :=
  (withPairField_even hprd s _).trans (withSources_of_valid ha hb _)

end Operands

/-- Settles O34: H2F is row 12 of the opcode map, and with its operands valid it concludes the run of `hashToField`. -/
theorem h2fOutcome : Obligations.H2fOutcome := by
  refine ⟨encodedAs_opcodeMap 12, fun s prd a b hprd => ⟨fun ha hb hlimit => ?_,
    exec_invalid_source ((namesPair_iff prd).2 hprd) rfl⟩⟩
  have hover (ports : Ports) : h2fOver ports prd a b s = .next (afterH2f ports s prd (s.elem a) (s.elem b)) := by
    rw [h2fOver_valid hprd ha hb, answerLimit_none hlimit, concludeRun_hashToField]
  exact ⟨hover, hover _⟩

/-- Settles O35: H2C is row 13 of the opcode map, and with its operands valid it concludes the run of `hashToCurve`. -/
theorem h2cOutcome : Obligations.H2cOutcome := by
  refine ⟨encodedAs_opcodeMap 13, fun s prd a b hprd => ⟨fun ha hb hlimit => ?_,
    exec_invalid_source ((namesPair_iff prd).2 hprd) rfl⟩⟩
  have hover (ports : Ports) : h2cOver ports prd a b s = .next (afterH2c ports s prd (s.elem a) (s.elem b)) := by
    rw [h2cOver_valid hprd ha hb, answerLimit_none hlimit, concludeRun_hashToCurve]
  exact ⟨hover, hover _⟩

/-! ### Two executions with the same operands -/

theorem elem_writePair_x (r : Reg) (x y : Elem) (s : State) : (writePair r x y s).elem r = x.toNat := by
  rw [writePair, elem_writeReg, if_neg (pairY_ne r), elem_writeReg_self]

theorem elem_writePair_y (r : Reg) (x y : Elem) (s : State) : (writePair r x y s).elem (r + 1) = y.toNat :=
  elem_writeReg_self (r + 1) y _

/-- Over ports that answer, the run of `hashToCurve` is not left waiting. -/
theorem hashToCurve_not_waiting (b : Build) (ports : Ports) (m d : Nat) :
    (hashToCurve b.toParams ⟨ports, none⟩ m d).ending ≠ .waiting := fun h =>
  (hashToCurve_ok (C := False) 0 0 0 b.valid.prime.one_lt False.elim False.elim).waiting h rfl

/-- Two commands whose results go to the pairs `d1` and `d2` have ended alike: they made the same requests, and gave the
same error at the same stage or the same point. -/
def SameOutcome (d1 d2 : Reg) (t1 t2 : State) : Prop :=
  t1.status.err = t2.status.err ∧ t1.requests = t2.requests ∧
    (t1.status.err = true → t1.status.errcode = t2.status.errcode ∧ t1.status.errstage = t2.status.errstage) ∧
    (t1.status.err = false → t1.elem d1 = t2.elem d2 ∧ t1.elem (d1 + 1) = t2.elem (d2 + 1))

/-- The same run, concluded in two states that show no error, has the same outcome. -/
theorem concludeRun_sameOutcome {r : Run Point} {d1 d2 : Reg} {s1 s2 t1 t2 : State} (hr : r.ending ≠ .waiting)
    (herr1 : s1.status.err = false) (herr2 : s2.status.err = false)
    (h1 : concludeRun d1 s1 r = .next t1) (h2 : concludeRun d2 s2 r = .next t2) : SameOutcome d1 d2 t1 t2 := by
  obtain ⟨reqs, ending⟩ := r
  cases ending with
  | value P =>
    cases h1
    cases h2
    refine ⟨herr1.trans herr2.symm, rfl, fun h => ?_, fun _ => ⟨?_, ?_⟩⟩
    · exact absurd (herr1.symm.trans h) Bool.false_ne_true
    · exact (elem_writePair_x d1 _ _ _).trans (elem_writePair_x d2 _ _ _).symm
    · exact (elem_writePair_y d1 _ _ _).trans (elem_writePair_y d2 _ _ _).symm
  | error e stage =>
    cases h1
    cases h2
    exact ⟨rfl, rfl, fun _ => ⟨rfl, rfl⟩, nofun⟩
  | waiting => exact absurd rfl hr

/-- Settles O36: both executions conclude one and the same run. -/
theorem h2cDependsOnOperandsOnly : Obligations.H2cDependsOnOperandsOnly := by
  intro s1 s2 t1 t2 d1 a1 b1 d2 a2 b2 hbuild hl1 hl2 herr1 herr2 hd1 hd2 ha1 hb1 ha2 hb2 ha hb h1 h2
  rw [exec, execH2c, h2cOver_valid hd1 ha1 hb1, answerLimit_none hl1, hbuild, ha, hb] at h1
  rw [exec, execH2c, h2cOver_valid hd2 ha2 hb2, answerLimit_none hl2] at h2
  exact concludeRun_sameOutcome (hashToCurve_not_waiting _ _ _ _) herr1 herr2 h1 h2

end Sys2Proof.Proofs
end

section
/-! PROOFS. Errors and collisions of 60_exceptions.md: the acknowledgement, what an error changes and which can occur,
and what takes COLL away. -/

namespace Sys2Proof.Proofs

open Sys2Proof.Machine Sys2Proof.Laws Sys2Proof.Spec

/-! ### A command that ends with an error -/

/-- Of the endings of a command, only an error turns ERR on. -/
theorem exec_raises {s t : State} {i : Instr} (hs : s.status.err = false) (h : exec i s = .next t)
    (ht : t.status.err = true) :
    ∃ e stage reqs, stage ∈ mayRaise i e ∧ t = failed { s with requests := reqs } e stage := by
  cases exec_effect h with
  | raised e stage reqs _ hstage _ hfailed => exact ⟨e, stage, reqs, hstage, hfailed⟩
  | waits reqs _ _ hissue => simp [hissue, hs] at ht
  | commits u hw hfinish =>
    rw [hfinish, finish_status, hw.status, hs] at ht
    cases ht

/-- Settles O16: `failed` itself fixes the requests, the code and the stage of the state it leaves. -/
theorem errorsArePrecise : Obligations.ErrorsArePrecise := by
  intro s t i hs h ht
  obtain ⟨e, stage, reqs, -, rfl⟩ := exec_raises hs h ht
  rfl

/-- Settles O17: the error a command ends with is in the table. -/
theorem errorTable : Obligations.ErrorTable := by
  refine ⟨fun s t i hs h ht => ?_, rfl, rfl, rfl, rfl, rfl, rfl, rfl, rfl⟩
  obtain ⟨e, stage, reqs, hstage, rfl⟩ := exec_raises hs h ht
  exact hstage

/-- Settles O15: of a STATUS write, bits 1 and 2 clear DONE and the error fields, and bit 3 alone would clear COLL. -/
theorem errorAcknowledged : Obligations.ErrorAcknowledged := by
  intro s rest hw _
  rw [step_writesStatus hw, acknowledge, writeOneToClear_eq]
  simp

/-! ### COLL -/

/-- The offset 0x010 alone is STATUS (R71). -/
theorem offset_of_status {off : Nat} (h4 : off % 4 = 0) (h : windowReg off = .status) : off = 0x010 := by
  simp only [windowReg, ite_eq_iff, reduceCtorEq, and_false, and_true, false_or, or_false] at h
  omega

/-- No command writes COLL, however it ends. -/
theorem unitStep_coll {s t : State} (h : unitStep s = .next t) : t.status.coll = s.status.coll := by
  obtain ⟨-, rfl⟩ | ⟨-, i, he⟩ := unitStep_effect h
  · rfl
  · obtain ⟨u, hw, -, hcoll, -⟩ := effect_writes he
    rw [hcoll, hw.status]

/-- The inputs that may take COLL away: an edge of the reset input, the soft reset, and bit 3 of a STATUS write. -/
inductive ClearsColl (c : Params) : Input → Prop
  | resetInput (level : Bool) : ClearsColl c (.resetInput level)
  | softReset {v : Word} (hv : v[1] = true) : ClearsColl c (.hostWrite ⟨c.base + 0x00C, 4⟩ v)
  | statusWrite {v : Word} (hv : v[3] = true) : ClearsColl c (.hostWrite ⟨c.base + 0x010, 4⟩ v)

theorem takeInput_coll {s t : State} {i : Input} (hr : s.resetHeld = false) (h : takeInput s i = .next t)
    (hs : s.status.coll = true) (ht : t.status.coll = false) : ClearsColl s.build.toParams i := by
  cases i with
  | hostRead a =>
    obtain ⟨off, -, rfl⟩ := hostRead_next h
    simp [hs] at ht
  | hostWrite a v =>
    obtain ⟨off, ha, hwrite⟩ := hostWrite_next h
    obtain ⟨rfl, hoff, h4⟩ := (accessOffset_ok_iff _ _ _).1 ha
    rw [hr, if_neg Bool.false_ne_true] at hwrite
    cases hwrite ▸ writeWord_effect s off v with
    | acknowledges hw he =>
      obtain rfl := offset_of_status h4 hw
      exact .statusWrite (by simpa [he, writeOneToClear_eq, hs] using ht)
    | resets hw hv =>
      obtain rfl := offset_of_ctrl h4 hw
      exact .softReset hv
    | accepts _ _ he | collides _ _ he | enables _ _ he | stores _ _ he | ignored he =>
      simp [he, Status.clearError, hs] at ht
  | unit => simp [unitStep_coll h, hs] at ht
  | resetInput level => exact .resetInput level
  | ports limit =>
    cases h
    simp [hs] at ht

/-- Settles O14: a CMD write to a BUSY unit is `collide`, and with the reset input released a step that takes COLL away
is that of an input of `ClearsColl`. -/
theorem commandCollision : Obligations.CommandCollision := by
  refine ⟨fun s w rest hw hb => step_writesCmd_busy hw hb, fun s t h hs ht => or_iff_not_imp_left.2 fun hheld => ?_⟩
  have hr : s.resetHeld = false := Bool.eq_false_iff.2 hheld
  cases hi : s.inputs with
  | nil =>
    rw [step_nil_released hr hi] at h
    simp [unitStep_coll h, hs] at ht
  | cons i rest =>
    rw [step_cons_released hr hi] at h
    cases takeInput_coll (s := { s with inputs := rest }) hr h hs ht with
    | resetInput level => exact ⟨rest, .inl ⟨level, rfl⟩⟩
    | softReset hv => exact ⟨rest, .inr (.inl ⟨_, ⟨hr, hi⟩, hv⟩)⟩
    | statusWrite hv => exact ⟨rest, .inr (.inr ⟨_, ⟨hr, hi⟩, hv⟩)⟩

end Sys2Proof.Proofs
end

section
/-! PROOFS. Reset held, the constants of the build, and the end of a run with ports that answer. -/

namespace Sys2Proof.Proofs

open Sys2Proof.Machine Sys2Proof.Laws Sys2Proof.Spec

/-! ### What stands outside the core -/

/-- A write of the host leaves the build, the inputs to come and the ports' readiness. -/
theorem writeWord_outside (s : State) (off : Nat) (v : Word) :
    (writeWord s off v).build = s.build ∧ (writeWord s off v).inputs = s.inputs ∧
      (writeWord s off v).portLimit = s.portLimit := by
  cases writeWord_effect s off v with
  | accepts _ _ ht | collides _ _ ht | acknowledges _ ht | resets _ _ ht | enables _ _ ht | stores _ _ ht | ignored ht =>
    rw [ht]; exact ⟨rfl, rfl, rfl⟩

/-- The unit's step leaves the build, the inputs to come and the ports' readiness. -/
theorem unitStep_outside {s t : State} (h : unitStep s = .next t) :
    t.build = s.build ∧ t.inputs = s.inputs ∧ t.portLimit = s.portLimit := by
  obtain ⟨-, rfl⟩ | ⟨-, i, he⟩ := unitStep_effect h
  · exact ⟨rfl, rfl, rfl⟩
  · obtain ⟨u, hw, ht, -⟩ := effect_writes he
    rw [ht]
    exact ⟨hw.build, hw.inputs, hw.portLimit⟩

/-- No input changes the build or the inputs after it, and only one kind of input the ports' readiness. -/
theorem takeInput_outside {s t : State} {i : Input} (h : takeInput s i = .next t) :
    t.build = s.build ∧ t.inputs = s.inputs ∧ ((∀ l, i ≠ .ports l) → t.portLimit = s.portLimit) := by
  cases i with
  | hostRead a =>
    obtain ⟨off, -, rfl⟩ := hostRead_next h
    exact ⟨rfl, rfl, fun _ => rfl⟩
  | hostWrite a v =>
    obtain ⟨off, -, rfl⟩ := hostWrite_next h
    split
    · exact ⟨rfl, rfl, fun _ => rfl⟩
    · obtain ⟨hbuild, hinputs, hlimit⟩ := writeWord_outside s off v
      exact ⟨hbuild, hinputs, fun _ => hlimit⟩
  | unit =>
    obtain ⟨hbuild, hinputs, hlimit⟩ := unitStep_outside h
    exact ⟨hbuild, hinputs, fun _ => hlimit⟩
  | resetInput level =>
    cases h
    exact ⟨rfl, rfl, fun _ => rfl⟩
  | ports limit =>
    cases h
    exact ⟨rfl, rfl, fun hl => absurd rfl (hl limit)⟩

theorem step_build {s t : State} (h : step s = .next t) : t.build = s.build := by
  cases hi : s.inputs with
  | nil => exact (unitStep_outside (step_nil hi ▸ h)).1.trans (underReset_build s)
  | cons i rest =>
    rw [step_cons hi] at h
    exact (takeInput_outside h).1.trans (underReset_build s)

/-! ### Reset held, and the constants -/

/-- Settles O3: both edges and every step in between leave a reset core, which is IDLE and so accepts the word that is
written to CMD next. -/
theorem resetHeld : Obligations.ResetHeld := by
  refine ⟨fun s level rest hi _ => ⟨_, step_resetInput hi, atReset_resetCore s, rfl⟩, fun s t hr hs => ?_,
    fun s w rest hr hi => ?_⟩
  · obtain ⟨_, _, _, rfl, hlevel⟩ := step_held hr hs
    exact ⟨atReset_resetCore s, rfl, hlevel⟩
  · rw [run_two (step_resetInput hi), underReset_held hr]
    exact ⟨_, step_writesCmd_idle ⟨rfl, rfl⟩ rfl, rfl, rfl, rfl⟩

/-- Settles O53: no step changes the build, and the words of the constants depend on it alone. -/
theorem constantsNeverChange : Obligations.ConstantsNeverChange := fun _ _ h =>
  ⟨step_build h, fun _ hoff => readWord_constant hoff (step_build h)⟩

/-! ### With ports that answer, commands complete -/

theorem run_succ {s t : State} (h : step s = .next t) (n : Nat) : core.run (n + 1) s = core.run n t := by
  have hstep : core.step s = .next t := h
  simp only [Host.Core.run, hstep]

/-- An access is supported when it has an offset in the window. -/
theorem accessSupported_iff (c : Params) (a : Access) :
    accessSupported c a = true ↔ ∃ off, accessOffset c a = .ok off := by
  unfold accessSupported
  cases accessOffset c a <;> simp [Except.toOption]

/-- A supported input is never refused. -/
theorem takeInput_next {s : State} {i : Input} (h : i.supported s.build.toParams = true) :
    ∃ t, takeInput s i = .next t := by
  cases i with
  | hostRead a =>
    obtain ⟨off, hoff⟩ := (accessSupported_iff _ a).1 h
    exact ⟨_, by rw [takeInput, hostRead, hoff]⟩
  | hostWrite a v =>
    obtain ⟨off, hoff⟩ := (accessSupported_iff _ a).1 h
    exact ⟨_, by rw [takeInput, hostWrite, hoff]⟩
  | unit =>
    obtain ⟨t, ht, -⟩ := unitStep_next s
    exact ⟨t, ht⟩
  | resetInput level => exact ⟨_, rfl⟩
  | ports limit => exact ⟨_, rfl⟩

/-- A supported input is used up in one step, and leaves what decides whether the others are supported. -/
theorem step_supported {s : State} {i : Input} {rest : List Input} (hi : s.inputs = i :: rest)
    (hsupported : i.supported s.build.toParams = true) (hports : ∀ l, i ≠ .ports l) :
    ∃ t, step s = .next t ∧ t.build = s.build ∧ t.inputs = rest ∧ t.portLimit = s.portLimit := by
  rw [← underReset_build s] at hsupported
  obtain ⟨t, ht⟩ := takeInput_next (s := { underReset s with inputs := rest }) hsupported
  obtain ⟨hbuild, hrest, hlimit⟩ := takeInput_outside ht
  exact ⟨t, (step_cons hi).trans ht, hbuild.trans (underReset_build s), hrest,
    (hlimit hports).trans (underReset_portLimit s)⟩

/-- Over ports that answer, a step of the unit ends the command in progress. -/
theorem unitStep_completes {s t : State} (hlimit : s.portLimit = none) (h : unitStep s = .next t) :
    t.status.busy = false := by
  obtain ⟨hb, rfl⟩ | ⟨-, i, he⟩ := unitStep_effect h
  · exact hb
  · cases he with
    | raised _ _ _ _ _ _ ht => rw [ht]; rfl
    | waits _ hl _ _ => exact absurd hlimit hl
    | commits _ _ ht => rw [ht]; rfl

/-- Settles O56, by induction on the inputs: each is taken, and when none is left the unit's step ends the command. -/
theorem commandsComplete : Obligations.CommandsComplete := by
  intro s hlimit hinputs
  generalize hi : s.inputs = inputs at hinputs ⊢
  induction inputs generalizing s with
  | nil =>
    obtain ⟨t, ht, -, -, hrest⟩ := unitStep_next (underReset s)
    refine ⟨t, run_succ (step_nil hi ▸ ht) 0, ?_, ?_⟩
    · rw [hrest, underReset_inputs, hi]
    · exact unitStep_completes ((underReset_portLimit s).trans hlimit) ht
  | cons i rest ih =>
    obtain ⟨⟨hsupported, hports⟩, hrest⟩ := List.forall_mem_cons.1 hinputs
    obtain ⟨t, ht, hbuild, htail, hready⟩ := step_supported hi hsupported hports
    rw [List.length_cons, run_succ ht]
    exact ih t (hready.trans hlimit) htail (hbuild ▸ hrest)

end Sys2Proof.Proofs
end

section
/-! PROOFS. Ports that fall silent: the run of a command over ports that answer only its first requests, and the unit
that stays BUSY at the first unanswered one. -/

namespace Sys2Proof.Proofs

open Sys2Proof.Machine Sys2Proof.Laws Sys2Proof.Spec

/-! ### A run over ports that answer the first requests only -/

/-- `r'` is what remains of the run `r` when the ports answer the first `k` requests of its command, which has made
`j` answered ones before: all of `r` if it asks for no more, else its requests up to the unanswered one. -/
def CutAt {α : Type} (k j : Nat) (r' r : Run α) : Prop :=
  j ≤ k → r' = if j + r.requests.length ≤ k then r else ⟨r.requests.take (k + 1 - j), .waiting⟩

section Stages

variable {α β : Type} {k j p : Nat} {ports : Ports} {stage : Stage}

theorem CutAt.done (a : α) : CutAt k j (Run.done a) (Run.done a) := fun hj => (if_pos hj).symm

theorem CutAt.internal {e : ErrCode} {o : Option α} {next' next : α → Run β}
    (hnext : ∀ a, CutAt k j (next' a) (next a)) :
    CutAt k j ((internalStage e stage o).andThen next') ((internalStage e stage o).andThen next) := by
  cases o with
  | some a => exact hnext a
  | none => exact fun hj => (if_pos hj).symm

/-- A stage that makes request number `j + 1` of its command, the request `q`, and what follows it. -/
theorem CutAt.ask {q : Request} {ending : Ending α} {next' next : α → Run β}
    (hnext : ∀ a, CutAt k (j + 1) (next' a) (next a)) :
    CutAt k j (Run.andThen ⟨[q], if Outside.answers ⟨ports, some k⟩ (j + 1) then ending else .waiting⟩ next')
      (Run.andThen ⟨[q], ending⟩ next) := by
  intro hj
  by_cases hk : j + 1 ≤ k
  · cases ending with
    | value a =>
      have htake : k + 1 - j = k + 1 - (j + 1) + 1 := by omega
      have htotal (reqs : List Request) : j + (q :: reqs).length = j + 1 + reqs.length := by
        rw [List.length_cons]; omega
      simp only [Outside.answers, hk, decide_true, if_true, Run.andThen, hnext a hk, List.singleton_append, htake,
        htotal, List.take_succ_cons]
      split <;> rfl
    | error e stage | waiting => simp [Outside.answers, Run.andThen, hk]
  · obtain rfl : j = k := by omega
    cases ending <;> simp [Outside.answers, Run.andThen]

theorem CutAt.hash {a b c : Nat} {next' next : Nat → Run β} (hnext : ∀ h, CutAt k (j + 1) (next' h) (next h)) :
    CutAt k j ((hashStage p ⟨ports, some k⟩ (j + 1) stage a b c).andThen next')
      ((hashStage p ⟨ports, none⟩ (j + 1) stage a b c).andThen next) := CutAt.ask hnext

theorem CutAt.add {P Q : Point} {next' next : Point → Run β} (hnext : ∀ R, CutAt k (j + 1) (next' R) (next R)) :
    CutAt k j ((addStage p ⟨ports, some k⟩ (j + 1) stage P Q).andThen next')
      ((addStage p ⟨ports, none⟩ (j + 1) stage P Q).andThen next) := CutAt.ask hnext

end Stages

theorem cutAt_hashToField (k p : Nat) (ports : Ports) (m d : Nat) :
    CutAt k 0 (hashToField p ⟨ports, some k⟩ m d).asPair (hashToField p ⟨ports, none⟩ m d).asPair := by
  simp only [Run.asPair, hashToField, andThen_assoc, done_andThen]
  exact .hash fun _ => .hash fun _ => .done _

theorem cutAt_hashToCurve (k : Nat) (c : Params) (ports : Ports) (m d : Nat) :
    CutAt k 0 (hashToCurve c ⟨ports, some k⟩ m d) (hashToCurve c ⟨ports, none⟩ m d) := by
  rw [← andThen_done (hashToCurve _ ⟨ports, some k⟩ _ _), ← andThen_done (hashToCurve _ ⟨ports, none⟩ _ _)]
  simp only [hashToCurve, hashToField, andThen_assoc, done_andThen]
  exact
    .hash fun _ => .hash fun _ =>
    .internal fun _ => .internal fun _ => .internal fun _ => .internal fun _ =>
    .add fun _ => .add fun _ => .add fun _ => .add fun _ => .done _

/-! ### What a command leaves over such ports -/

/-- What every conclusion of a run leaves: its requests on record, and the unit IDLE unless the run is left waiting. -/
theorem concludeRun_next (prd : Reg) (s : State) (r : Run Point) :
    ∃ u, concludeRun prd s r = .next u ∧ u.requests = r.requests ∧ u.resetHeld = s.resetHeld ∧
      (r.ending ≠ .waiting → u.status.busy = false) := by
  obtain ⟨reqs, ending⟩ := r
  cases ending with
  | value P => exact ⟨_, rfl, rfl, rfl, fun _ => rfl⟩
  | error e stage => exact ⟨_, rfl, rfl, rfl, fun _ => rfl⟩
  | waiting => exact ⟨_, rfl, rfl, rfl, fun h => absurd rfl h⟩

/-- A run that is cut leaves the state before it with the requests up to the unanswered one; one that is not, what it
always leaves. -/
theorem concludeRun_cut {k : Nat} {prd : Reg} {s u : State} {r' r : Run Point} (h : CutAt k 0 r' r)
    (hu : concludeRun prd s r = .next u) : concludeRun prd s r' = .next (underLimit k u s) := by
  obtain ⟨_, hu', hreqs, -⟩ := concludeRun_next prd s r
  cases hu.symm.trans hu'
  rw [h (Nat.zero_le k), Nat.zero_add, underLimit, hreqs]
  split
  · exact hu
  · rfl

/-- The conclusion of a run looks neither at the inputs to come nor at the requests on record before it. -/
theorem concludeRun_issue_withInputs (prd : Reg) (inputs : List Input) (reqs : List Request) (s : State)
    (r : Run Point) :
    concludeRun prd (issue reqs (withInputs inputs s)) r = onNext (withInputs inputs) (concludeRun prd s r) := by
  unfold concludeRun
  cases r.ending <;> rfl

section Operands

variable {s : State} {prd a b : Reg} {n : Nat} (hprd : prd.val % 2 = 0) (ha : s.isValid a = true)
  (hb : s.isValid b = true) (hn : answerLimit s = some n)

include hprd ha hb hn

theorem h2fOver_limited (ports : Ports) :
    h2fOver ports prd a b s = .next (underLimit n (afterH2f ports s prd (s.elem a) (s.elem b)) s) := by
  rw [h2fOver_valid hprd ha hb, hn]
  exact concludeRun_cut (cutAt_hashToField n _ ports _ _) (concludeRun_hashToField ports prd s _ _)

theorem h2cOver_limited (ports : Ports) :
    h2cOver ports prd a b s = .next (underLimit n (afterH2c ports s prd (s.elem a) (s.elem b)) s) := by
  rw [h2cOver_valid hprd ha hb, hn]
  exact concludeRun_cut (cutAt_hashToCurve n _ ports _ _) (concludeRun_hashToCurve ports prd s _ _)

end Operands

/-- Over ports that answer, the run of H2F is not left waiting. -/
theorem hashToField_not_waiting (b : Build) (ports : Ports) (m d : Nat) :
    (hashToField b.p ⟨ports, none⟩ m d).asPair.ending ≠ .waiting := fun h =>
  have hfield := hashToField_ok (C := False) (i := .h2f 0 0 0) (o := ⟨ports, none⟩) (m := m) (d := d) (by decide)
    (by decide) b.valid.prime.one_lt False.elim False.elim
  (hfield.andThen (good' := fun _ => True) fun _ _ => RunOk.done trivial).waiting h rfl

/-- The command `i`, with the operands that `s` holds and ports that answer `n` requests, ends as the run `r` does that
no port leaves waiting, cut at the first unanswered request. -/
structure ConcludesCut (i : Instr) (prd : Reg) (n : Nat) (s : State) (r : Run Point) : Prop where
  not_waiting : r.ending ≠ .waiting
  exec_cut : ∀ t, t.build = s.build → t.freg = s.freg → t.valid = s.valid → answerLimit t = some n →
    ∃ r', CutAt n 0 r' r ∧ exec i t = concludeRun prd t r'

section Latched

variable {s : State} {prd a b : Reg} (hprd : prd.val % 2 = 0) (ha : s.isValid a = true) (hb : s.isValid b = true)
  (n : Nat)

include hprd ha hb

theorem h2f_concludesCut :
    ConcludesCut (.h2f prd a b) prd n s
      (hashToField s.build.p ⟨Config.ports s.build.toParams, none⟩ (s.elem a) (s.elem b)).asPair where
  not_waiting := hashToField_not_waiting s.build _ _ _
  exec_cut t hbuild hfreg hvalid hn := by
    refine ⟨_, cutAt_hashToField n _ _ _ _, ?_⟩
    rw [exec, execH2f, h2fOver_valid hprd (isValid_congr hvalid a ▸ ha) (isValid_congr hvalid b ▸ hb), hn, hbuild,
      elem_congr hfreg, elem_congr hfreg]

theorem h2c_concludesCut :
    ConcludesCut (.h2c prd a b) prd n s
      (hashToCurve s.build.toParams ⟨Config.ports s.build.toParams, none⟩ (s.elem a) (s.elem b)) where
  not_waiting := hashToCurve_not_waiting s.build _ _ _
  exec_cut t hbuild hfreg hvalid hn := by
    refine ⟨_, cutAt_hashToCurve n _ _ _ _, ?_⟩
    rw [exec, execH2c, h2cOver_valid hprd (isValid_congr hvalid a ▸ ha) (isValid_congr hvalid b ▸ hb), hn, hbuild,
      elem_congr hfreg, elem_congr hfreg]

end Latched

/-! ### The unit, step after step -/

/-- An IDLE unit lets its steps pass. -/
theorem run_units_idle {s : State} (hr : s.resetHeld = false) (hb : s.status.busy = false) :
    ∀ k, core.run k (withInputs (List.replicate k .unit) s) = .next (withInputs [] s)
  | 0 => rfl
  | k + 1 => by
    have hstep : step (withInputs (List.replicate (k + 1) .unit) s) = .next (withInputs (List.replicate k .unit) s) :=
      (step_unit hr _).trans (unitStep_idle hb)
    rw [run_succ hstep, run_units_idle hr hb k]

/-- How many requests are answered while a command waits at request `n + 1`. -/
theorem answerLimit_waiting {s : State} {n : Nat} (hn : s.portLimit = some n) (hlen : s.requests.length ≤ n + 1) :
    answerLimit s = some n := by
  rw [answerLimit, hn, Option.map_some, Nat.max_eq_left (by omega)]

theorem underLimit_cases (n : Nat) (u s : State) :
    (u.requests.length ≤ n ∧ underLimit n u s = u) ∨
      (n < u.requests.length ∧ underLimit n u s = issue (u.requests.take (n + 1)) s) := by
  by_cases h : u.requests.length ≤ n
  · exact .inl ⟨h, if_pos h⟩
  · exact .inr ⟨Nat.lt_of_not_le h, if_neg h⟩

theorem underLimit_withInputs (n : Nat) (inputs : List Input) (u s : State) :
    underLimit n (withInputs inputs u) (withInputs inputs s) = withInputs inputs (underLimit n u s) := by
  simp only [underLimit, apply_ite (withInputs inputs)]
  rfl

/-- A unit whose every step waits at request `n + 1` or completes does the same in any positive number of steps. -/
theorem run_units_underLimit {s u : State} {n : Nat} (hr : s.resetHeld = false) (hur : u.resetHeld = false)
    (hub : u.status.busy = false)
    (hunit : ∀ inputs reqs, reqs.length ≤ n + 1 →
      unitStep (issue reqs (withInputs inputs s)) = .next (withInputs inputs (underLimit n u s)))
    (k : Nat) (reqs : List Request) (hlen : reqs.length ≤ n + 1) :
    core.run (k + 1) (issue reqs (withInputs (List.replicate (k + 1) .unit) s)) =
      .next (withInputs [] (underLimit n u s)) := by
  have hfirst (k : Nat) (reqs : List Request) (hlen : reqs.length ≤ n + 1) :
      core.run (k + 1) (issue reqs (withInputs (List.replicate (k + 1) .unit) s)) =
        core.run k (withInputs (List.replicate k .unit) (underLimit n u s)) :=
    run_succ ((step_unit (s := issue reqs s) hr _).trans (hunit _ reqs hlen)) k
  induction k generalizing reqs with
  | zero => exact hfirst 0 reqs hlen
  | succ k ih =>
    rw [hfirst (k + 1) reqs hlen]
    obtain ⟨-, e⟩ | ⟨-, e⟩ := underLimit_cases n u s
    · rw [e]
      exact run_units_idle hur hub (k + 1)
    · have hwaits := ih (u.requests.take (n + 1)) (List.length_take_le _ _)
      rw [e] at hwaits ⊢
      exact hwaits

/-- In any positive number of steps, a BUSY unit ends its command or waits at the first unanswered request. -/
theorem run_units_cut {s u : State} {i : Instr} {prd : Reg} {n k : Nat} {r : Run Point} (hlimit : s.portLimit = some n)
    (hreqs : s.requests = []) (hr : s.resetHeld = false) (hbusy : s.status.busy = true)
    (hinputs : s.inputs = List.replicate (k + 1) .unit) (hdecode : decode s.cmdl = .ok i)
    (hcut : ConcludesCut i prd n s r) (hu : concludeRun prd (withInputs [] s) r = .next u) :
    core.run (k + 1) s = .next (underLimit n u (withInputs [] s)) := by
  obtain ⟨v, hv, -, hheld, hidle⟩ := concludeRun_next prd s r
  have hput (inputs : List Input) (reqs : List Request) :
      concludeRun prd (issue reqs (withInputs inputs s)) r = .next (withInputs inputs v) := by
    rw [concludeRun_issue_withInputs, hv, onNext]
  have hunit (inputs : List Input) (reqs : List Request) (hlen : reqs.length ≤ n + 1) :
      unitStep (issue reqs (withInputs inputs s)) = .next (withInputs inputs (underLimit n v s)) := by
    have hanswered : answerLimit (issue reqs (withInputs inputs s)) = some n := answerLimit_waiting hlimit hlen
    obtain ⟨r', hr', hexec⟩ := hcut.exec_cut (issue reqs (withInputs inputs s)) rfl rfl rfl hanswered
    rw [unitStep_command (s := issue reqs (withInputs inputs s)) hbusy hdecode, hexec,
      concludeRun_cut hr' (hput inputs reqs), ← underLimit_withInputs]
    rfl
  have hstart : issue [] (withInputs (List.replicate (k + 1) .unit) s) = s := by rw [← hinputs, ← hreqs]; rfl
  have hrun := run_units_underLimit hr (hheld.trans hr) (hidle hcut.not_waiting) hunit k [] (Nat.zero_le _)
  cases hu.symm.trans (hput [] s.requests)
  rw [underLimit_withInputs, ← hrun, hstart]

/-- Settles O37: over ports that answer `n` requests a command concludes the run it makes over ports that answer, cut
after `n`; and so it does again at every later step of the unit. -/
theorem silentPortHangsTheUnit : Obligations.SilentPortHangsTheUnit := by
  refine ⟨fun ports s d a b n hd ha hb hlimit => ?_, fun s d a b n k hd ha hb hlimit hreqs hr hbusy hinputs => ?_⟩
  · have hn : answerLimit s = some (max n (s.requests.length - 1)) := by rw [answerLimit, hlimit, Option.map_some]
    exact ⟨h2fOver_limited hd ha hb hn ports, h2cOver_limited hd ha hb hn ports⟩
  · have heven : d.namesPair = true := (namesPair_iff d).2 hd
    refine ⟨fun hcmdl => ?_, fun hcmdl => ?_⟩
    · have hdecode : decode s.cmdl = .ok (.h2f d a b) := hcmdl ▸ decode_encode heven
      exact run_units_cut hlimit hreqs hr hbusy hinputs hdecode (h2f_concludesCut hd ha hb n)
        (concludeRun_hashToField _ d (withInputs [] s) _ _)
    · have hdecode : decode s.cmdl = .ok (.h2c d a b) := hcmdl ▸ decode_encode heven
      exact run_units_cut hlimit hreqs hr hbusy hinputs hdecode (h2c_concludesCut hd ha hb n)
        (concludeRun_hashToCurve _ d (withInputs [] s) _ _)

end Sys2Proof.Proofs
end

section
/-! PROOFS. The model's own readings of the reset input: accesses while it is asserted, and a release that is no edge. -/

namespace Sys2Proof.Proofs

open Sys2Proof.Machine Sys2Proof.Laws Sys2Proof.Spec

/-! ### One supported access of the host, with the reset input asserted -/

/-- The word the host last read shows nowhere in the window. -/
theorem readWord_withRdata (s : State) (rdata : Word) (off : Nat) :
    readWord { s with rdata := rdata } off = readWord s off := by
  unfold readWord
  cases windowReg off <;> rfl

theorem hostRead_at {s : State} {off : Nat} (hoff : off < 4096) (h4 : off % 4 = 0) :
    hostRead ⟨s.build.base + off, 4⟩ s = .next { s with rdata := readWord s off } := by
  simp only [hostRead, accessOffset_at _ hoff h4]

/-- While the reset input is asserted a write leaves the reset core. -/
theorem step_write_held {s : State} {off : Nat} {v : Word} {rest : List Input} (hr : s.resetHeld = true)
    (hi : s.inputs = .hostWrite ⟨s.build.base + off, 4⟩ v :: rest) (hoff : off < 4096) (h4 : off % 4 = 0) :
    step s = .next { resetCore s with inputs := rest } := by
  rw [step_cons hi, underReset_held hr, takeInput]
  exact (hostWrite_at (s := { resetCore s with inputs := rest }) hoff h4 v).trans (congrArg _ (if_pos hr))

/-- While the reset input is asserted a read finds the reset core. -/
theorem step_read_held {s : State} {off : Nat} {rest : List Input} (hr : s.resetHeld = true)
    (hi : s.inputs = .hostRead ⟨s.build.base + off, 4⟩ :: rest) (hoff : off < 4096) (h4 : off % 4 = 0) :
    step s = .next { resetCore s with inputs := rest, rdata := readWord { resetCore s with inputs := rest } off } := by
  rw [step_cons hi, underReset_held hr, takeInput]
  exact hostRead_at (s := { resetCore s with inputs := rest }) hoff h4

/-- Settles O4: both accesses leave the reset core, and storing the word read does not change what the window shows. -/
theorem accessesUnderReset : Obligations.AccessesUnderReset := fun s _ _ _ hr hoff h4 =>
  ⟨fun hi => ⟨_, step_write_held hr hi hoff h4, atReset_resetCore s, hr, rfl, rfl⟩,
    fun hi => ⟨_, step_read_held hr hi hoff h4, atReset_resetCore s, hr, rfl, (readWord_withRdata _ _ _).symm⟩⟩

/-! ### A release that is no edge -/

/-- Settles O5: the reset input resets the core whatever level it takes and had, and leaves the build. -/
theorem releaseWithoutAssertion : Obligations.ReleaseWithoutAssertion := by
  intro s rest hr hi
  have hstep : step s = .next (setResetInput false { s with inputs := rest }) := by
    rw [step_resetInput hi, underReset_released hr]
  exact ⟨_, hstep, atReset_resetCore s, rfl, rfl, rfl, fun _ hoff => readWord_constant hoff rfl⟩

end Sys2Proof.Proofs
end
